-- ==== Sys2Proof/Word.lean ====
section
/-! DEFINITION. The word types of CRC8F: a byte (8 bits), a half (16 bits, `OFF_W`) and a command word (32 bits, `CMD_W`);
`LEN_W` is the width of a byte (`00_scope.md` R5, §6). No value is signed. -/

namespace Sys2Proof

/-- 8 bits: data, the accumulator, `cause`, `idx`, the length operand (`00_scope.md` §6). -/
abbrev Byte := BitVec 8

/-- 16 bits: `off`, `blen`, `s_off` (`00_scope.md` R5, `OFF_W`). -/
abbrev Half := BitVec 16

/-- 32 bits: a command word, `finfo` (`00_scope.md` R5, `CMD_W`). -/
abbrev Word := BitVec 32

end Sys2Proof
end

