-- ==== Sys2Proof/Syntax.lean ====
section
/-! DEFINITION. The commands of the block, one constructor per row of the opcode map (`30_encoding.md` R47), and the program
text's line (R55). -/

namespace Sys2Proof

/-- A command of CRC8F. The operands have exactly the widths of their fields (`30_encoding.md` R43, R46), so every term is a
command some word stands for: a length above 255 cannot be expressed. -/
inductive Instr where
  /-- `BCLR` (`40_buffer_ops.md` R57). -/
  | bclr
  /-- `BPUSH d` (`40_buffer_ops.md` R58). -/
  | bpush (d : Byte)
  /-- `CINIT` (`41_crc_engine.md` R67). -/
  | cinit
  /-- `CBYTE d` (`41_crc_engine.md` R68). -/
  | cbyte (d : Byte)
  /-- `CRC off, len` (`41_crc_engine.md` R70). -/
  | crc (off : Half) (len : Byte)
  /-- `ENC off, len` (`42_frame_encoder.md` R79). -/
  | enc (off : Half) (len : Byte)
  /-- `FRAME off, len` (`42_frame_encoder.md` R82). -/
  | frame (off : Half) (len : Byte)
  deriving DecidableEq, Repr

/-- The three command word formats (`30_encoding.md` R42). -/
inductive Format where
  /-- no operand -/
  | z
  /-- one byte operand -/
  | b
  /-- a sub-range operand: offset and length -/
  | r
  deriving DecidableEq, Repr

/-- The seven mnemonics (`30_encoding.md` R47). -/
inductive Mnemonic where
  | bclr | bpush | cinit | cbyte | crc | enc | frame
  deriving DecidableEq, Repr

/-- Which command has which format (`30_encoding.md` R45). -/
def Mnemonic.format : Mnemonic → Format
  | .bclr => .z
  | .bpush => .b
  | .cinit => .z
  | .cbyte => .b
  | .crc => .r
  | .enc => .r
  | .frame => .r

/-- The mnemonic of a command. -/
def Instr.mnemonic : Instr → Mnemonic
  | .bclr => .bclr
  | .bpush _ => .bpush
  | .cinit => .cinit
  | .cbyte _ => .cbyte
  | .crc _ _ => .crc
  | .enc _ _ => .enc
  | .frame _ _ => .frame

/-- One line of program text after its characters are read: a mnemonic and its operands as unsigned numerals, in the order
offset, then length (`30_encoding.md` R55). An operand may be out of its field's range here. -/
structure AsmLine where
  mnemonic : Mnemonic
  operands : List Nat
  deriving DecidableEq, Repr

end Sys2Proof
end

