-- ==== Sys2Proof/Decode.lean ====
section
/-! DEFINITION. Decoding and encoding of command words (`30_encoding.md` R42 to R49). Decoding is total: a word that matches
no row of the opcode map is rejected by name. -/

namespace Sys2Proof

/-- One row of the opcode map: the bits that must agree (`mask`) and what they must be (`pattern`, the table's "match"). -/
structure OpRow where
  mnemonic : Mnemonic
  mask : Word
  pattern : Word
  deriving DecidableEq, Repr

/-- The opcode map (`30_encoding.md` R47, `opcode_table.json`). -/
def opRow : Mnemonic → OpRow
  | .bclr => { mnemonic := .bclr, mask := 0xFFFFFFFF#32, pattern := 0x01000000#32 }
  | .bpush => { mnemonic := .bpush, mask := 0xFFFFFF00#32, pattern := 0x02000000#32 }
  | .cinit => { mnemonic := .cinit, mask := 0xFFFFFFFF#32, pattern := 0x10000000#32 }
  | .cbyte => { mnemonic := .cbyte, mask := 0xFFFFFF00#32, pattern := 0x11000000#32 }
  | .crc => { mnemonic := .crc, mask := 0xFF000000#32, pattern := 0x12000000#32 }
  | .enc => { mnemonic := .enc, mask := 0xFF000000#32, pattern := 0x20000000#32 }
  | .frame => { mnemonic := .frame, mask := 0xFF000000#32, pattern := 0x21000000#32 }

/-- The rows in the table's order. -/
def opcodeMap : List OpRow :=
  [opRow .bclr, opRow .bpush, opRow .cinit, opRow .cbyte, opRow .crc, opRow .enc, opRow .frame]

/-- "A word `w` is the command of a row if and only if `w & mask = match`" (`30_encoding.md` R47). -/
def OpRow.selects (r : OpRow) (w : Word) : Bool := w &&& r.mask == r.pattern

/-- `w[31:24]` (`30_encoding.md` R43). -/
def wordOp (w : Word) : Byte := w.extractLsb' 24 8

/-- `w[23:8]`, an unsigned offset, not scaled and not extended (`30_encoding.md` R43, R46). -/
def wordOff (w : Word) : Half := w.extractLsb' 8 16

/-- `w[7:0]`, the length operand or the data byte (`30_encoding.md` R43, R46). -/
def wordLow (w : Word) : Byte := w.extractLsb' 0 8

/-- Why a word is no command (`30_encoding.md` R48, `60_exceptions.md` R115). Both raise `IllegalCommand`. -/
inductive IllegalWord where
  /-- an `op` value the opcode map does not assign -/
  | unassignedOp (op : Byte)
  /-- an assigned format Z or B `op` with a non-zero must-be-zero field -/
  | mustBeZero (op : Byte)
  deriving DecidableEq, Repr

/-- The `op` values the opcode map assigns (`30_encoding.md` R47). -/
def opAssigned (op : Byte) : Bool := opcodeMap.any fun r => wordOp r.pattern == op

/-- The command a word stands for (`30_encoding.md` R47), or why it is none (R48). -/
def decode (w : Word) : Except IllegalWord Instr :=
  if (opRow .bclr).selects w then .ok .bclr
  else if (opRow .bpush).selects w then .ok (.bpush (wordLow w))
  else if (opRow .cinit).selects w then .ok .cinit
  else if (opRow .cbyte).selects w then .ok (.cbyte (wordLow w))
  else if (opRow .crc).selects w then .ok (.crc (wordOff w) (wordLow w))
  else if (opRow .enc).selects w then .ok (.enc (wordOff w) (wordLow w))
  else if (opRow .frame).selects w then .ok (.frame (wordOff w) (wordLow w))
  else if opAssigned (wordOp w) then .error (.mustBeZero (wordOp w))
  else .error (.unassignedOp (wordOp w))

/-- A format Z word (`30_encoding.md` R43). -/
def encodeZ (m : Mnemonic) : Word := (opRow m).pattern

/-- A format B word: `match | d` (`40_buffer_ops.md` R58). -/
def encodeB (m : Mnemonic) (d : Byte) : Word := (opRow m).pattern ||| d.setWidth 32

/-- A format R word: `match | (off << 8) | len` (`41_crc_engine.md` R70). -/
def encodeR (m : Mnemonic) (off : Half) (len : Byte) : Word :=
  (opRow m).pattern ||| (off.setWidth 32 <<< 8) ||| len.setWidth 32

/-- The word of a command (`30_encoding.md` R43, R45, R47). -/
def encode : Instr → Word
  | .bclr => encodeZ .bclr
  | .bpush d => encodeB .bpush d
  | .cinit => encodeZ .cinit
  | .cbyte d => encodeB .cbyte d
  | .crc off len => encodeR .crc off len
  | .enc off len => encodeR .enc off len
  | .frame off len => encodeR .frame off len

/-- The decoder on a table row's bits: bit 0 is the word's least significant bit, every bit from `nbits` up is 0. A command is
one word of 32 bits (`30_encoding.md` R42), and that word is a number, not a byte sequence (`20_memory.md` R34 (b)). -/
def decodeTableWord (nbits w : Nat) : Option Instr :=
  match decode (BitVec.ofNat 32 (w % 2 ^ nbits)) with
  | .ok i => some i
  | .error _ => none

/-- The command a well-formed line stands for; none where the operand count or a range is wrong (`30_encoding.md` R55, R56:
one line is exactly one command word). -/
def assemble (l : AsmLine) : Option Instr :=
  match l.mnemonic, l.operands with
  | .bclr, [] => some .bclr
  | .cinit, [] => some .cinit
  | .bpush, [d] => if d ≤ 255 then some (.bpush (BitVec.ofNat 8 d)) else none
  | .cbyte, [d] => if d ≤ 255 then some (.cbyte (BitVec.ofNat 8 d)) else none
  | .crc, [off, len] =>
    if off ≤ 65535 ∧ len ≤ 255 then some (.crc (BitVec.ofNat 16 off) (BitVec.ofNat 8 len)) else none
  | .enc, [off, len] =>
    if off ≤ 65535 ∧ len ≤ 255 then some (.enc (BitVec.ofNat 16 off) (BitVec.ofNat 8 len)) else none
  | .frame, [off, len] =>
    if off ≤ 65535 ∧ len ≤ 255 then some (.frame (BitVec.ofNat 16 off) (BitVec.ofNat 8 len)) else none
  | _, _ => none

/-- A command as a line of program text (`30_encoding.md` R55). -/
def Instr.asmLine : Instr → AsmLine
  | .bclr => { mnemonic := .bclr, operands := [] }
  | .bpush d => { mnemonic := .bpush, operands := [d.toNat] }
  | .cinit => { mnemonic := .cinit, operands := [] }
  | .cbyte d => { mnemonic := .cbyte, operands := [d.toNat] }
  | .crc off len => { mnemonic := .crc, operands := [off.toNat, len.toNat] }
  | .enc off len => { mnemonic := .enc, operands := [off.toNat, len.toNat] }
  | .frame off len => { mnemonic := .frame, operands := [off.toNat, len.toNat] }

end Sys2Proof
end

