-- ==== Sys2Proof/Config.lean ====
section
/-! DEFINITION. The configuration of the block (`00_scope.md` R5, R6), the host-level constants (`44_host_sessions.md` R91, R109)
and the free values of the model (`93_implementation_defined.md` U6; `44_host_sessions.md` R106). -/

namespace Sys2Proof

/-- The parameters of the block, all nine of `00_scope.md` R5. They are immutable configuration, not state
(`10_state.md` R18). -/
structure Config where
  /-- `POLY`: coefficients of x^7 to x^0 of the generator; x^8 is implicit (`41_crc_engine.md` R61). -/
  poly : Byte
  /-- `SOF`: first byte of every frame. -/
  sof : Byte
  /-- `EOF`: last byte of every frame. -/
  eof : Byte
  /-- `CRC_INIT`: value of the accumulator at the start of a range computation (`41_crc_engine.md` R65). -/
  crcInit : Byte
  /-- `CRC_XOROUT`: value XORed into the result of a range computation (`41_crc_engine.md` R65). -/
  crcXorout : Byte
  /-- `BUF_CAP`: capacity of the payload buffer in bytes. -/
  bufCap : Nat
  /-- `CMD_W`: width of a command word, the type `Word`. -/
  cmdW : Nat
  /-- `OFF_W`: width of the offset operand and of `blen`, the type `Half`. -/
  offW : Nat
  /-- `LEN_W`: width of the length operand and of a frame's length byte, the type `Byte`. -/
  lenW : Nat
  deriving DecidableEq, Repr

/-- The values this hardware takes (`00_scope.md` R5, column "value"). -/
def Config.hw : Config :=
  { poly := 0x31#8, sof := 0x8D#8, eof := 0x8F#8, crcInit := 0x00#8, crcXorout := 0x00#8, bufCap := 256,
    cmdW := 32, offW := 16, lenW := 8 }

/-- What a byte of `buf` that no `BPUSH` has ever written holds, by address: a FREE VALUE, "any value"
(`93_implementation_defined.md` U6; `10_state.md` R12, R25). No rule can read such a byte in a reachable state (R14).
Log entry 2; safe. -/
opaque Config.unwrittenByte : Nat → Byte

/-- The elapsed time a Reception Session reports where the wall clock reads `now`, earlier than `last_timestamp`: a FREE VALUE
of the two, since the spec is silent there (`44_host_sessions.md` R106). Host level. Log entry 16; safe. -/
opaque Config.backwardElapsed (now last : Nat) : Nat

/-- `ACK` (`44_host_sessions.md` R91), host level: no command reads it. -/
def Config.ack : Byte := 0x90#8

/-- `TRIGGER` (`44_host_sessions.md` R91), host level: no command reads it. -/
def Config.trigger : Byte := 0xFF#8

/-- `CHUNK_SIZE` (`44_host_sessions.md` R91), host level: it reaches the block only as a `len` operand. -/
def Config.chunkSize : Nat := 4

/-- The transport's configuration, an external collaborator (`44_host_sessions.md` R109). The block reads none of it. -/
structure TransportConfig where
  baud : Nat
  parity : Bool
  stopBits : Nat
  dataBits : Nat
  /-- `ACK_TIMEOUT` in a unit the document does not name (`92_eei_decisions.md` D37, log entry 10). -/
  readTimeoutUnits : Nat
  deriving DecidableEq, Repr

/-- "fixed baud rate 2400, no parity, one stop bit, 8 data bits, 1-time-unit read timeout" (`44_host_sessions.md` R109). -/
def Config.transport : TransportConfig :=
  { baud := 2400, parity := false, stopBits := 1, dataBits := 8, readTimeoutUnits := 1 }

end Sys2Proof
end

