-- ==== Sys2Proof/Machine/State.lean ====
section
/-! DEFINITION. The state of the block (`10_state.md` section 1, complete by R22), the reasons a step can stop, and the state
right after reset (`10_state.md` R25). Plain data. -/

namespace Sys2Proof.Machine

/-- The frame sequencer's phase: `IDLE`, `START`, `LEN`, `PAYLOAD`, `CRCB`, `END` (`10_state.md` R21,
`42_frame_encoder.md` R86). -/
inductive Phase where
  | idle | start | len | payload | crcb | endm
  deriving DecidableEq, Repr

/-- The payload buffer's written bytes as (address, byte) pairs in one canonical form: addresses strictly rising, all below
`BUF_CAP` (`10_state.md` R12, `20_memory.md` R28, R29). An address that is not listed has never been written. -/
abbrev Memory := List Host.Cell

/-- What the host presents on the input ports at one command boundary: `rst`, and at most one word on `cmd`
(`10_state.md` R24, `60_exceptions.md` R120). -/
structure PortInput where
  rst : Bool
  cmd : Option Word
  deriving DecidableEq, Repr

/-- The whole state. Every field but `host` is a piece of state the spec names. -/
structure State where
  /-- The accumulator (`10_state.md` R11). -/
  acc : Byte
  /-- The payload buffer (`10_state.md` R12). -/
  buf : Memory
  /-- Number of valid bytes of `buf` (`10_state.md` R13). -/
  blen : Half
  /-- The sticky fault flag (`10_state.md` R15). -/
  fault : Bool
  /-- The code of the fault that halted the block (`10_state.md` R16). -/
  cause : Byte
  /-- The command word that raised the fault (`10_state.md` R17). -/
  finfo : Word
  /-- Every byte emitted since reset, first byte first (`10_state.md` R19). -/
  tx : List Byte
  /-- The frame sequencer's phase (`10_state.md` R21). -/
  phase : Phase
  /-- Payload bytes the sequencer has emitted (`10_state.md` R21). -/
  idx : Byte
  /-- The sequencer's offset latch `s_off` (`42_frame_encoder.md` R86). -/
  sOff : Half
  /-- The sequencer's length latch `s_len` (`42_frame_encoder.md` R86). -/
  sLen : Byte
  /-- The MODEL's own field (log entry 1): the port values the host will present, oldest first. -/
  host : List PortInput
  deriving DecidableEq, Repr

/-- Why the machine stops with no next state. The block's own three faults are NOT here: their entry is described
(`60_exceptions.md` R121), so raising one is a next state. -/
inductive Fault where
  /-- A command or `rst` given to a meaning while a frame is in progress: "stuck", the model has no move
  (`93_implementation_defined.md` U9, `42_frame_encoder.md` R88). Raised by `command` and `present`, and never by `step`, which
  presents no input while the block is busy. Log entry 5. Safe. -/
  | busy
  /-- An access to `buf` at an address that does not exist, `BUF_CAP` or above (`20_memory.md` R29). Raised by `memRead` and
  `memWrite`: by a command only where `blen` is above `BUF_CAP`, which no reachable state has (`10_state.md` R26 (a)), and by
  the sequencer's step also where a frame in progress is badly placed (outside `SeqInv`). Log entry 6. Safe. -/
  | noSuchAddress (addr : Nat)
  deriving DecidableEq, Repr

/-- Why an instruction has no meaning here. -/
inductive Refusal where
  /-- An instruction whose arm of `exec` has no meaning yet. No arm answers it. Safe. -/
  | notModelled (mnemonic : String)
  deriving DecidableEq, Repr

/-- The block right after reset (`10_state.md` R25): everything zero, `tx` empty, the sequencer idle. `buf` is unspecified:
no byte is listed (log entry 2). `s_off` and `s_len` are unspecified: 0 is a DESIGN CHOICE (log entry 3). No word is
presented yet (log entry 1). -/
def State.reset : State :=
  { acc := 0x00#8, buf := [], blen := 0#16, fault := false, cause := 0#8, finfo := 0x00000000#32, tx := [],
    phase := .idle, idx := 0#8, sOff := 0#16, sLen := 0#8, host := [] }

end Sys2Proof.Machine
end

