-- ==== Sys2Proof/Machine/Flags.lean ====
section
/-! DEFINITION. The block's one flag and its fault codes (`10_state.md` R15, R16; `60_exceptions.md` R113). There are no
condition codes, carry, zero or overflow flags (`10_state.md` R15). -/

namespace Sys2Proof.Machine

/-- The three synchronous faults of the block (`60_exceptions.md` R113). -/
inductive FaultCause where
  /-- `off + len > blen` in `CRC`, `ENC`, `FRAME` (`60_exceptions.md` R114) -/
  | invalidRange
  /-- a word that is no command (`60_exceptions.md` R115) -/
  | illegalCommand
  /-- `BPUSH` at `blen = BUF_CAP` (`60_exceptions.md` R116) -/
  | bufferFull
  deriving DecidableEq, Repr

/-- The code a fault leaves in `cause` (`60_exceptions.md` R113). -/
def faultCode : FaultCause → Byte
  | .invalidRange => 1#8
  | .illegalCommand => 2#8
  | .bufferFull => 3#8

/-- Halted: `fault = 1`, the block ignores commands until reset (`60_exceptions.md` R122). -/
def halted (s : State) : Bool := s.fault

/-- Busy: a frame is in progress, the block accepts no command (`42_frame_encoder.md` R88). -/
def busy (s : State) : Bool := s.phase != .idle

end Sys2Proof.Machine
end

