-- ==== Sys2Proof/Machine/Ops.lean ====
section
/-! DEFINITION. The shared operations: the payload buffer's one-byte accesses (`20_memory.md` R30), the output stream
(`10_state.md` R19), fault entry (`60_exceptions.md` R121), its only way out, reset (`70_reset_and_hazards.md` R131), the
common precondition of every command, and the output ports (`10_state.md` R24). -/

namespace Sys2Proof.Machine

/-- What a meaning answers. -/
abbrev Res := Host.Outcome State Fault Refusal

/-- The byte last written at address `a`, if any ever was. -/
def Memory.lookup (a : Nat) : Memory → Option Byte
  | [] => none
  | (k, b) :: rest => if k = a then some b else Memory.lookup a rest

/-- `buf` with the byte `v` at address `a` and every other byte as it was, kept in canonical form. -/
def Memory.insert (a : Nat) (v : Byte) : Memory → Memory
  | [] => [(a, v)]
  | (k, b) :: rest =>
    if a < k then (a, v) :: (k, b) :: rest
    else if a = k then (a, v) :: rest
    else (k, b) :: Memory.insert a v rest

/-- The canonical form from address `lo` on: addresses strictly rising, none below `lo`, all below `cap`. -/
def Memory.risingFrom (lo cap : Nat) : Memory → Bool
  | [] => true
  | (k, _) :: rest => decide (lo ≤ k) && decide (k < cap) && Memory.risingFrom (k + 1) cap rest

/-- The canonical form of a buffer of capacity `cap`. -/
def Memory.wf (cap : Nat) (m : Memory) : Bool := Memory.risingFrom 0 cap m

/-- `buf[a]`: the byte last written at `a`, or the free value where nothing was ever written
(`20_memory.md` R30; `93_implementation_defined.md` U6). -/
def bufByte (s : State) (a : Nat) : Byte := (Memory.lookup a s.buf).getD (Config.unwrittenByte a)

/-- `MemRead(a, 1)`: no side effect (`20_memory.md` R30, R37). Addresses `BUF_CAP` and above do not exist (R29). R30 defines
it only for `a < blen`; that an address from `blen` up to `BUF_CAP` answers `bufByte`, the stale or free byte there, is a
DESIGN CHOICE (log entry 14). Only the sequencer's step in a badly placed frame, outside `SeqInv`, reads there. -/
def memRead (c : Config) (a : Nat) (s : State) : Except Fault Byte :=
  if a < c.bufCap then .ok (bufByte s a) else .error (.noSuchAddress a)

/-- `MemWrite(a, 1, v)`: one byte, no other byte changes (`20_memory.md` R30). -/
def memWrite (c : Config) (a : Nat) (v : Byte) (s : State) : Except Fault State :=
  if a < c.bufCap then .ok { s with buf := Memory.insert a v s.buf } else .error (.noSuchAddress a)

/-- `n` one-byte reads from address `a` on, ascending (`20_memory.md` R32, R36). -/
def readBytes (c : Config) (s : State) (a : Nat) : Nat → Except Fault (List Byte)
  | 0 => .ok []
  | n + 1 =>
    match memRead c a s with
    | .error f => .error f
    | .ok b =>
      match readBytes c s (a + 1) n with
      | .error f => .error f
      | .ok rest => .ok (b :: rest)

/-- `Emit(b)` for each byte of `bs` in order; it always succeeds (`10_state.md` R19, `00_scope.md` §6). -/
def emit (bs : List Byte) (s : State) : State := { s with tx := s.tx ++ bs }

/-- Fault entry, `raise <Fault>(w)`: the record is written and nothing else changes (`60_exceptions.md` R121). A meaning gives
its own `encode i` for `w` (log entry 11). -/
def raise (f : FaultCause) (w : Word) (s : State) : State :=
  { s with fault := true, cause := faultCode f, finfo := w }

/-- Reset, the only way out of a fault (`70_reset_and_hazards.md` R131, R132; `60_exceptions.md` R123). `buf` and the latches
are not written (R131, `90_conflicts.md` C9; the latches: log entry 4). -/
def resetBlock (s : State) : State :=
  { s with acc := 0x00#8, blen := 0#16, fault := false, cause := 0#8, finfo := 0x00000000#32, tx := [],
           phase := .idle, idx := 0#8 }

/-- The common precondition of every command (`40_buffer_ops.md` preamble): a busy block accepts none
(`42_frame_encoder.md` R88; stuck, `93_implementation_defined.md` U9, log entry 5), a halted one ignores it (`60_exceptions.md` R119
step 1, R122), otherwise `body` is the outcome. -/
def command (s : State) (body : Res) : Res :=
  if busy s then .fault .busy else if halted s then .next s else body

/-- The output ports, projections of the state (`10_state.md` R24, `00_scope.md` R9). -/
structure OutPorts where
  crcOut : Byte
  blenOut : Half
  fault : Bool
  cause : Byte
  finfo : Word
  tx : List Byte
  deriving DecidableEq, Repr

/-- What can be observed of the block (`00_scope.md` R9, `10_state.md` R24). -/
def outPorts (s : State) : OutPorts :=
  { crcOut := s.acc, blenOut := s.blen, fault := s.fault, cause := s.cause, finfo := s.finfo, tx := s.tx }

end Sys2Proof.Machine
end

