-- ==== Sys2Proof/Machine/BufferOps.lean ====
section
/-! DEFINITION. The buffer commands `BCLR` and `BPUSH` (`40_buffer_ops.md`). -/

namespace Sys2Proof.Machine

/-- `BCLR`: `blen <- 0`; the bytes stay where they were, `acc` stays (`40_buffer_ops.md` R57, `92_eei_decisions.md` D29). -/
def execBclr (s : State) : Res := command s (.next { s with blen := 0#16 })

/-- Append `d` at address `blen`, or raise `BufferFull` (`40_buffer_ops.md` R58). -/
def pushByte (c : Config) (w : Word) (d : Byte) (s : State) : Res :=
  if s.blen.toNat = c.bufCap then .next (raise .bufferFull w s)
  else
    match memWrite c s.blen.toNat d s with
    | .ok t => .next { t with blen := s.blen + 1#16 }
    | .error f => .fault f

/-- `BPUSH d` (`40_buffer_ops.md` R58). -/
def execBpush (d : Byte) (s : State) : Res := command s (pushByte Config.hw (encode (.bpush d)) d s)

end Sys2Proof.Machine
end

