-- ==== Sys2Proof/Machine/Operands.lean ====
section
/-! DEFINITION. The one operand form that is more than a field: the sub-range `(off, len)` of `CRC`, `ENC` and `FRAME`
(`20_memory.md` R31). The byte operand `d` is used as it stands (`30_encoding.md` R46). -/

namespace Sys2Proof.Machine

/-- A valid sub-range: `off + len <= blen`, the sum in natural numbers, never wrapped (`20_memory.md` R31,
`92_eei_decisions.md` D38). -/
def validRange (s : State) (off : Half) (len : Byte) : Bool := decide (off.toNat + len.toNat ≤ s.blen.toNat)

/-- `buf[off .. off+n)`, ascending address first (`20_memory.md` R32). -/
def slice (s : State) (off n : Nat) : List Byte := (List.range n).map fun i => bufByte s (off + i)

/-- The range check of `CRC`, `ENC` and `FRAME`, before anything else (`20_memory.md` R31, `60_exceptions.md` R114): an
invalid sub-range raises `InvalidRange` with the command word `w`, a valid one hands its bytes to `body`. -/
def withRange (c : Config) (w : Word) (off : Half) (len : Byte) (s : State) (body : List Byte → Res) : Res :=
  if validRange s off len then
    match readBytes c s off.toNat len.toNat with
    | .ok p => body p
    | .error f => .fault f
  else .next (raise .invalidRange w s)

end Sys2Proof.Machine
end

