-- ==== Sys2Proof/Machine/FrameCodec.lean ====
section
/-! DEFINITION. The Frame Codec (`42_frame_encoder.md` sections 1 and 2, `30_encoding.md` section 4): the frame function and
the commands `ENC`, `FRAME`. -/

namespace Sys2Proof.Machine

/-- The bytes of a frame in index order: `SOF`, the length byte, the payload verbatim, the CRC byte, `EOF`
(`30_encoding.md` R50, R54). -/
def frameBytes (c : Config) (len : Byte) (p : List Byte) (crc : Byte) : List Byte := [c.sof, len] ++ p ++ [crc, c.eof]

/-- The frame function: `[SOF, len(p)] ++ p ++ [crc, EOF]` (`42_frame_encoder.md` R77). It is not defined above 255 bytes,
by truncation or otherwise (`93_implementation_defined.md` U1). -/
def frame (c : Config) (p : List Byte) (crc : Byte) : Option (List Byte) :=
  if p.length ≤ 255 then some (frameBytes c (BitVec.ofNat 8 p.length) p crc) else none

/-- The operand latches as a frame's start leaves them: `s_off <- off; s_len <- len; idx <- 0` (`42_frame_encoder.md` R86;
log entry 4). -/
def latchRange (off : Half) (len : Byte) (s : State) : State := { s with sOff := off, sLen := len, idx := 0#8 }

/-- A whole frame at the command-atomic level: `Emit(SOF)`, `Emit(len)`, the payload bytes, `Emit(acc)`, `Emit(EOF)`
(`42_frame_encoder.md` R79, R81). The sequencer starts and is back at `IDLE` within the command. -/
def emitFrame (c : Config) (off : Half) (len : Byte) (p : List Byte) (s : State) : State :=
  emit (frameBytes c len p s.acc) (latchRange off len s)

/-- `ENC off, len`: `acc` is sent unchecked and stays (`42_frame_encoder.md` R79, R80, `92_eei_decisions.md` D36). -/
def execEnc (off : Half) (len : Byte) (s : State) : Res :=
  command s (withRange Config.hw (encode (.enc off len)) off len s fun p =>
    .next (emitFrame Config.hw off len p s))

/-- `FRAME off, len`: the CRC first, then the frame with that CRC (`42_frame_encoder.md` R82). -/
def execFrame (off : Half) (len : Byte) (s : State) : Res :=
  command s (withRange Config.hw (encode (.frame off len)) off len s fun p =>
    .next (emitFrame Config.hw off len p { s with acc := computeCrc Config.hw p }))

end Sys2Proof.Machine
end

