-- ==== Sys2Proof/Machine/Dispatch.lean ====
section
/-! DEFINITION. The effect of one command on the state: one arm per constructor of `Instr`. -/

namespace Sys2Proof.Machine

def exec (i : Instr) (s : State) : Host.Outcome State Fault Refusal :=
  match i with
  -- buffer commands
  | .bclr => Sys2Proof.Machine.execBclr s
  | .bpush d => Sys2Proof.Machine.execBpush d s
  -- CRC Engine commands
  | .cinit => Sys2Proof.Machine.execCinit s
  | .cbyte d => Sys2Proof.Machine.execCbyte d s
  | .crc off len => Sys2Proof.Machine.execCrc off len s
  -- Frame Codec commands
  | .enc off len => Sys2Proof.Machine.execEnc off len s
  | .frame off len => Sys2Proof.Machine.execFrame off len s

end Sys2Proof.Machine
end

