-- ==== Sys2Proof/Machine/Sequencer.lean ====
section
/-! DEFINITION. The byte-level frame sequencer (`42_frame_encoder.md` section 3), the refinement of `ENC` and `FRAME`: one
byte per step. The command-atomic meanings are the definition; the sequencer must agree with them (R90). -/

namespace Sys2Proof.Machine

/-- The start of a frame whose range check has passed: `s_off <- off; s_len <- len; idx <- 0; phase <- START`
(`42_frame_encoder.md` R86). -/
def seqStart (off : Half) (len : Byte) (s : State) : State := { latchRange off len s with phase := .start }

/-- One sequencer step, by phase: it emits exactly one byte and moves on (`42_frame_encoder.md` R87). At `IDLE` there is no
step. -/
def seqStep (c : Config) (s : State) : Res :=
  match s.phase with
  | .idle => .next s
  | .start => .next (emit [c.sof] { s with phase := .len, idx := 0#8 })
  | .len => .next (emit [s.sLen] { s with phase := if s.sLen = 0#8 then .crcb else .payload, idx := 0#8 })
  | .payload =>
    match memRead c (s.sOff.toNat + s.idx.toNat) s with
    | .error f => .fault f
    | .ok b =>
      .next (emit [b] { s with
        phase := if s.idx.toNat + 1 < s.sLen.toNat then .payload else .crcb
        idx := s.idx + 1#8 })
  | .crcb => .next (emit [s.acc] { s with phase := .endm })
  | .endm => .next (emit [c.eof] { s with phase := .idle, idx := 0#8 })

/-- `k` sequencer steps, fewer where `IDLE` is reached first. -/
def seqRun (c : Config) : Nat → State → Res
  | 0, s => .next s
  | k + 1, s =>
    match seqStep c s with
    | .next t => seqRun c k t
    | .fault f => .fault f
    | .refused r => .refused r

/-- `ENC off, len` at the byte level: the range check, then the start of the sequencer (`42_frame_encoder.md` R86). -/
def startEnc (off : Half) (len : Byte) (s : State) : Res :=
  command s (withRange Config.hw (encode (.enc off len)) off len s fun _ => .next (seqStart off len s))

/-- `FRAME off, len` at the byte level: the range check, `acc` written, then the start of the sequencer
(`42_frame_encoder.md` R86). -/
def startFrame (off : Half) (len : Byte) (s : State) : Res :=
  command s (withRange Config.hw (encode (.frame off len)) off len s fun p =>
    .next (seqStart off len { s with acc := computeCrc Config.hw p }))

end Sys2Proof.Machine
end

