-- ==== Sys2Proof/Machine/Command.lean ====
section
/-! DEFINITION. What the block does with what the host presents at a command boundary: a command word (`60_exceptions.md`
R119), `rst` (R120), or nothing (`00_scope.md` R7); and the same at the byte level of `42_frame_encoder.md` section 3. -/

namespace Sys2Proof.Machine

/-- One command word: the tests in the order of `60_exceptions.md` R119. -/
def runWord (w : Word) (s : State) : Res :=
  command s
    (match decode w with
    | .error _ => .next (raise .illegalCommand w s)
    | .ok i => exec i s)

/-- One presentation of the input ports: reset beats a coinciding word, which is discarded (`60_exceptions.md` R120); with
neither the block holds its state (`00_scope.md` R7, `60_exceptions.md` R130). While a frame is in progress there is no move
(`70_reset_and_hazards.md` R138; stuck, `93_implementation_defined.md` U9, log entry 5). -/
def present (p : PortInput) (s : State) : Res :=
  if busy s then .fault .busy
  else if p.rst then .next (resetBlock s)
  else
    match p.cmd with
    | none => .next s
    | some w => runWord w s

/-- A list of command words given in list order (`00_scope.md` section 1, `10_state.md` R20). -/
def runWords : List Word → State → Res
  | [], s => .next s
  | w :: ws, s =>
    match runWord w s with
    | .next t => runWords ws t
    | .fault f => .fault f
    | .refused r => .refused r

/-- A command at the byte level: `ENC` and `FRAME` start the sequencer, every other command is as it is
(`42_frame_encoder.md` R86). -/
def execBytes (i : Instr) (s : State) : Res :=
  match i with
  | .enc off len => startEnc off len s
  | .frame off len => startFrame off len s
  | .bclr => exec .bclr s
  | .bpush d => exec (.bpush d) s
  | .cinit => exec .cinit s
  | .cbyte d => exec (.cbyte d) s
  | .crc off len => exec (.crc off len) s

/-- The next presentation of the ports is taken off the host's list. -/
def takeInput (s : State) : Option (PortInput × State) :=
  match s.host with
  | [] => none
  | p :: rest => some (p, { s with host := rest })

/-- The host's next presentation is the word `w`, and the block is at a command boundary: what stands for loading a program
(log entry 1). -/
def placeWord (w : Word) (s : State) : State :=
  { s with host := { rst := false, cmd := some w } :: s.host, phase := .idle, idx := 0#8 }

/-- One step of the machine. A busy block emits the frame's next byte and takes no input (`42_frame_encoder.md` R87, R88);
otherwise it takes the host's next presentation; with none it waits (`00_scope.md` R7, `70_reset_and_hazards.md` R133). -/
def stepBlock (s : State) : Res :=
  if busy s then seqStep Config.hw s
  else
    match takeInput s with
    | none => .next s
    | some (p, t) => present p t

end Sys2Proof.Machine
end

