-- ==== Sys2Proof/Machine/Step.lean ====
section
/-! DEFINITION. The step of the machine and the placing of a word where the next step takes it. -/

namespace Sys2Proof.Machine

/-- One step (`00_scope.md` R7, R8). -/
def step (s : State) : Host.Outcome State Fault Refusal := stepBlock s

/-- `s` with the word whose bits are `w` (every bit from `nbits` up 0) as the host's next presentation, so that the very next
step runs it. The block fetches nothing (`10_state.md` R20), so this stands for the host giving the word (log entry 1). -/
def State.withFetchWord (s : State) (nbits w : Nat) : State := placeWord (BitVec.ofNat 32 (w % 2 ^ nbits)) s

end Sys2Proof.Machine
end

