-- ==== Sys2Proof/Machine/Session.lean ====
section
/-! DEFINITION. The Transmission Session, HOST-LEVEL software around the block (`44_host_sessions.md` R91 to R104): it is
outside the hardware (`00_scope.md` R4) and no field of State belongs to it (R94, log entry 12). It drives the block by
command words, treats `fault = 1` as a failed run, and resets to continue (R112). -/

namespace Sys2Proof.Machine

/-- The session's states (`44_host_sessions.md` R94). -/
inductive SessionPhase where
  | sending | awaitingAck | advancing | done
  deriving DecidableEq, Repr

/-- The session (`44_host_sessions.md` R93): the immutable payload, the cursor, the state. -/
structure TxSession where
  payload : List Byte
  cursor : Nat
  phase : SessionPhase
  deriving DecidableEq, Repr

/-- The session starts in `Sending` with `cursor = 0` (`44_host_sessions.md` R94). -/
def TxSession.start (payload : List Byte) : TxSession := { payload := payload, cursor := 0, phase := .sending }

/-- `n = min(CHUNK_SIZE, L - cursor)` (`44_host_sessions.md` R96). -/
def TxSession.chunkLen (t : TxSession) : Nat := min Config.chunkSize (t.payload.length - t.cursor)

/-- The command of a `Sending` step: `FRAME cursor, n` (`44_host_sessions.md` R96). The cursor is an offset of 16 bits; one
above 65535, which no run of `runSession` reaches, is taken modulo 2^16 (DESIGN CHOICE, log entry 13). -/
def TxSession.sendCommand (t : TxSession) : Instr := .frame (BitVec.ofNat 16 t.cursor) (BitVec.ofNat 8 t.chunkLen)

/-- The ACK test on what the one-byte read gave: absence and every other byte are not acknowledged
(`44_host_sessions.md` R99, R100; log entry 9). -/
def acknowledged (read : Option Byte) : Bool := read == some Config.ack

/-- One step of the session on the outcome of the read it is blocked on, with the commands it gives the block
(`44_host_sessions.md` R96, R99 to R101). Only `AwaitingAck` looks at the read. -/
def TxSession.step (read : Option Byte) (t : TxSession) : TxSession × List Instr :=
  match t.phase with
  | .sending => ({ t with phase := .awaitingAck }, [t.sendCommand])
  | .awaitingAck => ({ t with phase := if acknowledged read then .advancing else .sending }, [])
  | .advancing =>
    let next := t.cursor + Config.chunkSize
    ({ t with cursor := next, phase := if next ≤ t.payload.length then .sending else .done }, [])
  | .done => (t, [])

/-- A session and the block it drives. -/
structure TxSystem where
  session : TxSession
  block : State
  deriving DecidableEq, Repr

/-- What a session with its block answers. -/
inductive SystemRes where
  /-- the run goes on, with the block not halted -/
  | next (y : TxSystem)
  /-- the block has recorded a fault: "treat `fault = 1` as a failed run" (`44_host_sessions.md` R112). The host gives nothing
  more until it resets; `y` holds the session where it stood and the halted block with its record. -/
  | failed (y : TxSystem)
  /-- the block has no move -/
  | fault (f : Fault)
  /-- the block has no meaning for a command -/
  | refused (r : Refusal)
  deriving DecidableEq, Repr

/-- The host reads `fault` after what it gave the block (`44_host_sessions.md` R112): it goes on with the session `after`, or
the run has failed with the session `before`. When it reads is the model's choice (DESIGN CHOICE, log entry 12). -/
def SystemRes.watch (before after : TxSession) : Res → SystemRes
  | .next b =>
    if halted b then .failed { session := before, block := b } else .next { session := after, block := b }
  | .fault f => .fault f
  | .refused r => .refused r

/-- One step of a session with its block: the session's commands are given to the block as words, in order, and `fault` is
read after them. -/
def TxSystem.step (read : Option Byte) (y : TxSystem) : SystemRes :=
  SystemRes.watch y.session (y.session.step read).1 (runWords ((y.session.step read).2.map encode) y.block)

/-- Feed an outcome to the next step, stopping where it stops. -/
def SystemRes.andThen (o : SystemRes) (k : TxSystem → SystemRes) : SystemRes :=
  match o with
  | .next y => k y
  | .failed y => .failed y
  | .fault f => .fault f
  | .refused r => .refused r

/-- One attempt at a chunk: send it, read one byte (or time out), and advance where it was acknowledged. -/
def TxSystem.attempt (read : Option Byte) (y : TxSystem) : SystemRes :=
  match y.session.phase with
  | .done => TxSystem.step none y
  | _ =>
    SystemRes.andThen (SystemRes.andThen (TxSystem.step none y) (TxSystem.step read)) fun z =>
      match z.session.phase with
      | .advancing => TxSystem.step none z
      | _ => .next z

/-- One attempt per read, in order. -/
def TxSystem.attempts : List (Option Byte) → TxSystem → SystemRes
  | [], y => .next y
  | r :: rest, y => SystemRes.andThen (TxSystem.attempt r y) (TxSystem.attempts rest)

/-- Loading: `BCLR`, then one `BPUSH` per byte in order (`44_host_sessions.md` R95, which requires `L <= BUF_CAP`). A longer
payload is loaded unsplit (DESIGN CHOICE, log entry 13). -/
def loadWords (payload : List Byte) : List Word := encode .bclr :: payload.map fun d => encode (.bpush d)

/-- A whole run of a session from a block: load the payload, then one attempt per read. A payload longer than `BUF_CAP` is
loaded unsplit (DESIGN CHOICE, log entry 13; `91_not_in_source.md` N22), the push after the last free byte raises `BufferFull`,
and the run has failed (`44_host_sessions.md` R112). -/
def runSession (payload : List Byte) (reads : List (Option Byte)) (s : State) : SystemRes :=
  SystemRes.andThen
    (SystemRes.watch (TxSession.start payload) (TxSession.start payload) (runWords (loadWords payload) s))
    (TxSystem.attempts reads)

/-- How a host continues after a failed run: it resets the block, "then reloads the payload" and runs the session anew
(`44_host_sessions.md` R112, `60_exceptions.md` R123). That the session starts again at cursor 0, and does not resume at the
chunk where it failed, is a DESIGN CHOICE (log entry 15). -/
def recoverSession (payload : List Byte) (reads : List (Option Byte)) (s : State) : SystemRes :=
  match present { rst := true, cmd := none } s with
  | .next b => runSession payload reads b
  | .fault f => .fault f
  | .refused r => .refused r

end Sys2Proof.Machine
end

