-- ==== Sys2Proof/WellFormed.lean ====
section
/-! DEFINITION. Well-formedness: of a line of program text (`30_encoding.md` R55: operand count and operand ranges) and of a
configuration (`00_scope.md` R6). Every `Instr` is well formed by its type: its operands have their fields' widths. -/

namespace Sys2Proof

/-- A line is a command when it has its format's operands and each is in its field's range: "an operand out of its field's
range (`d > 255`, `len > 255`, `off > 65535`) is an error of the program text, not a command" (`30_encoding.md` R55). -/
def AsmLine.wf (l : AsmLine) : Bool :=
  match l.mnemonic.format, l.operands with
  | .z, [] => true
  | .b, [d] => decide (d ≤ 255)
  | .r, [off, len] => decide (off ≤ 65535) && decide (len ≤ 255)
  | _, _ => false

/-- `1 <= BUF_CAP <= 65535` (`00_scope.md` R6). `POLY`, `SOF`, `EOF` are any bytes. `CRC_INIT` and `CRC_XOROUT` "are fixed by
the document" (R5), and the widths are those of the types `Word`, `Half` and `Byte`. -/
def Config.wf (c : Config) : Bool :=
  decide (1 ≤ c.bufCap ∧ c.bufCap ≤ 65535 ∧ c.crcInit = 0x00#8 ∧ c.crcXorout = 0x00#8 ∧
    c.cmdW = 32 ∧ c.offW = 16 ∧ c.lenW = 8)

end Sys2Proof
end

