-- ==== Sys2Proof/Safety.lean ====
section
/-! DEFINITION. The terms claims are made in: a block ready for a command, the invariants of reachable states
(`10_state.md` R14, R26), whole frames, states that agree on what a rule can read, and error patterns (`41_crc_engine.md`
R74). -/

namespace Sys2Proof.Machine

/-- At a command boundary and not halted: the common precondition of every command (`40_buffer_ops.md` preamble). -/
abbrev Ready (s : State) : Prop := s.phase = .idle ∧ s.fault = false

/-- `blen <= BUF_CAP` (`10_state.md` R26 (a)). -/
abbrev Fits (s : State) : Prop := s.blen.toNat ≤ Config.hw.bufCap

/-- A safe end of a run: nothing has gone wrong (`00_scope.md` R9). -/
abbrev Safe (s : State) : Prop := s.fault = false

/-- The invariants of a state at a command boundary (`10_state.md` R14, R26 (a) to (d), (g)), and the canonical form of
`buf`. -/
structure Inv (s : State) : Prop where
  /-- R26 (a) -/
  blen_le : s.blen.toNat ≤ Config.hw.bufCap
  /-- R26 (b) -/
  fault_iff : s.fault = false ↔ s.cause = 0#8
  /-- R26 (c) -/
  finfo_clear : s.fault = false → s.finfo = 0#32
  /-- R26 (d) -/
  cause_le : s.cause.toNat ≤ 3
  /-- R26 (g) -/
  idle : s.phase = .idle
  /-- R26 (g) -/
  idx_zero : s.idx = 0#8
  /-- the form of `buf`: addresses strictly rising, all of them existing (`20_memory.md` R29) -/
  buf_wf : Memory.wf Config.hw.bufCap s.buf = true
  /-- R14: every address below `blen` has been written -/
  written : ∀ a, a < s.blen.toNat → (Memory.lookup a s.buf).isSome = true

/-- A frame in progress is well placed (`42_frame_encoder.md` R86, R87): its range is valid and `idx` counts bytes of it. -/
structure SeqInv (s : State) : Prop where
  range_le : s.sOff.toNat + s.sLen.toNat ≤ s.blen.toNat
  blen_le : s.blen.toNat ≤ Config.hw.bufCap
  idx_lt : s.phase = .payload → s.idx.toNat < s.sLen.toNat

/-- A concatenation of whole frames, each of the form of `30_encoding.md` R50 (`10_state.md` R26 (f)). Only the shape is
claimed, not that a CRC byte is right (`90_conflicts.md` C7). -/
inductive WholeFrames : List Byte → Prop where
  | nil : WholeFrames []
  | snoc {tx p f : List Byte} {crc : Byte} (h : WholeFrames tx) (hf : frame Config.hw p crc = some f) :
      WholeFrames (tx ++ f)

/-- Two states that agree on everything a rule can read at a command boundary: all of the state but the bytes of `buf` from
`blen` on and the idle sequencer's latches (`93_implementation_defined.md` U6, U8). -/
structure SameReadable (s t : State) : Prop where
  ports : outPorts s = outPorts t
  phase : s.phase = t.phase
  idx : s.idx = t.idx
  host : s.host = t.host
  valid : ∀ a, a < s.blen.toNat → bufByte s a = bufByte t a

/-- Two outcomes of one kind, with related states or equal reasons. -/
def OutcomeRel (R : State → State → Prop) : Res → Res → Prop
  | .next s, .next t => R s t
  | .fault f, .fault g => f = g
  | .refused r, .refused q => r = q
  | _, _ => False

/-- The block's state with the fault record of a fault: `fault = 1`, the code, the word (`60_exceptions.md` R121), written
out so that a claim does not rest on the machine's own fault entry. -/
def withRecord (code : Byte) (w : Word) (s : State) : State := { s with fault := true, cause := code, finfo := w }

/-- The bytes of the `BPUSH` commands of a command list, in list order (`40_buffer_ops.md` R59). -/
def pushedBytes (ws : List Word) : List Byte :=
  ws.filterMap fun w =>
    match decode w with
    | .ok (.bpush d) => some d
    | _ => none

/-- The bytes of the `CBYTE` commands of a command list, in list order (`41_crc_engine.md` R69). -/
def absorbedBytes (ws : List Word) : List Byte :=
  ws.filterMap fun w =>
    match decode w with
    | .ok (.cbyte d) => some d
    | _ => none

/-- A word that is none of `CINIT`, `CRC` and `FRAME`, the commands that write `acc` beside `CBYTE` (`10_state.md` R11). -/
def StreamsOn (w : Word) : Prop :=
  decode w ≠ .ok .cinit ∧ (∀ off len, decode w ≠ .ok (.crc off len)) ∧ ∀ off len, decode w ≠ .ok (.frame off len)

/-- A word that is neither `BPUSH` nor `BCLR`, the only commands that write `buf` or `blen` (`10_state.md` R12, R13). -/
def LeavesBuffer (w : Word) : Prop := decode w ≠ .ok .bclr ∧ ∀ d, decode w ≠ .ok (.bpush d)

/-- `s` with bit `k` flipped, counted from the first bit divided: bit 7 of the first byte is 0 (`95_test_vectors.md` §2.5). -/
def flipBit (s : List Byte) (k : Nat) : List Byte := s.modify (k / 8) fun d => d ^^^ (0x80#8 >>> (k % 8))

/-- `s` with the 8 bits from bit `k` on XORed with `b`: an error confined to 8 consecutive bits (`41_crc_engine.md`
R74 (iii)). -/
def xorBurst (s : List Byte) (k : Nat) (b : Byte) : List Byte :=
  (s.modify (k / 8) fun d => d ^^^ (b >>> (k % 8))).modify (k / 8 + 1) fun d => d ^^^ (b <<< (8 - k % 8))

/-- Bytewise XOR of two sequences (`41_crc_engine.md` R73 (a)). -/
def xorSeq (s t : List Byte) : List Byte := List.zipWith (· ^^^ ·) s t

/-- How many bits of a byte are 1. -/
def byteWeight (d : Byte) : Nat := (List.range 8).countP fun i => d.getLsbD i

/-- How many bits of a sequence are 1. -/
def seqWeight (s : List Byte) : Nat := (s.map byteWeight).sum

/-- The payload bytes of chunk `k` of a payload (`44_host_sessions.md` R96, R102). -/
def chunk (payload : List Byte) (k : Nat) : List Byte := (payload.drop (Config.chunkSize * k)).take Config.chunkSize

/-- The frame of a chunk, with the CRC of its payload (`30_encoding.md` R50). -/
def chunkFrame (p : List Byte) : List Byte := frameBytes Config.hw (BitVec.ofNat 8 p.length) p (computeCrc Config.hw p)

end Sys2Proof.Machine
end

