-- ==== Sys2Proof/Safety/Gf2.lean ====
section
/-! DEFINITION. Bytes and messages as polynomials over GF(2) (`41_crc_engine.md` R61, R66), for claims about the CRC. -/

namespace Sys2Proof.Gf2

/-- A byte as a polynomial, bit `i` the coefficient of x^i (`41_crc_engine.md` R66). -/
noncomputable def bytePoly (b : Byte) : Polynomial (ZMod 2) :=
  ∑ i ∈ Finset.range 8, if b.getLsbD i then Polynomial.X ^ i else 0

/-- A message as a polynomial, first byte first and bit 7 first (`41_crc_engine.md` R66). -/
noncomputable def messagePoly : List Byte → Polynomial (ZMod 2)
  | [] => 0
  | d :: rest => bytePoly d * Polynomial.X ^ (8 * rest.length) + messagePoly rest

/-- The generator G(x): x^8 and the coefficients `POLY` holds (`41_crc_engine.md` R61). -/
noncomputable def generatorPoly (poly : Byte) : Polynomial (ZMod 2) := Polynomial.X ^ 8 + bytePoly poly

end Sys2Proof.Gf2
end

