-- ==== Sys2Proof/Certificates/Slice0/Obligations.lean ====
section
/-! DEFINITION. The statements about the block, from the numbered rules of the spec. -/

open Sys2Proof Sys2Proof.Machine

/-! ### Encoding (`30_encoding.md`) -/

/-- Decoding an encoded command gives it back, with every operand at every value. Every `Instr` is well formed by its type. -/
def Obligations.DecodeEncodeRoundTrip : Prop := ∀ i : Instr, decode (encode i) = .ok i

/-- Each legal word has one meaning: the word a command decodes from is the command's word. With this, `finfo` (which a meaning
fills with `encode i`) is "the command word ... all 32 bits as the host gave them" (`10_state.md` R17). -/
def Obligations.EncodeDecodeRoundTrip : Prop := ∀ (w : Word) (i : Instr), decode w = .ok i → encode i = w

/-- R47: "A word `w` is the command of a row if and only if `w & mask = match`", with the operands of the row, the rows
pairwise disjoint, and the examples. -/
def Obligations.OpcodeMapSelectsCommand : Prop :=
  (∀ w : Word,
    (decode w = .ok .bclr ↔ w &&& 0xFFFFFFFF#32 = 0x01000000#32) ∧
    (∀ d, decode w = .ok (.bpush d) ↔ w &&& 0xFFFFFF00#32 = 0x02000000#32 ∧ d = w.extractLsb' 0 8) ∧
    (decode w = .ok .cinit ↔ w &&& 0xFFFFFFFF#32 = 0x10000000#32) ∧
    (∀ d, decode w = .ok (.cbyte d) ↔ w &&& 0xFFFFFF00#32 = 0x11000000#32 ∧ d = w.extractLsb' 0 8) ∧
    (∀ off len, decode w = .ok (.crc off len) ↔
      w &&& 0xFF000000#32 = 0x12000000#32 ∧ off = w.extractLsb' 8 16 ∧ len = w.extractLsb' 0 8) ∧
    (∀ off len, decode w = .ok (.enc off len) ↔
      w &&& 0xFF000000#32 = 0x20000000#32 ∧ off = w.extractLsb' 8 16 ∧ len = w.extractLsb' 0 8) ∧
    (∀ off len, decode w = .ok (.frame off len) ↔
      w &&& 0xFF000000#32 = 0x21000000#32 ∧ off = w.extractLsb' 8 16 ∧ len = w.extractLsb' 0 8)) ∧
  (opcodeMap.Pairwise fun r q => ∀ w : Word, ¬ (r.selects w = true ∧ q.selects w = true)) ∧
  encode (.bpush 0x41#8) = 0x02000041#32 ∧ encode (.crc 4#16 4#8) = 0x12000404#32 ∧
  encode (.enc 0#16 4#8) = 0x20000004#32 ∧ encode (.frame 8#16 0#8) = 0x21000800#32 ∧
  encode (.frame 4#16 1#8) = 0x21000401#32

/-- R48: decoding is total; a word that matches no row is illegal and raises `IllegalCommand`; which words these are; in
format R every combination decodes. -/
def Obligations.IllegalWordsRaiseIllegalCommand : Prop :=
  (∀ w : Word, (∃ e, decode w = .error e) ↔ ∀ r ∈ opcodeMap, w &&& r.mask ≠ r.pattern) ∧
  (∀ (w : Word) (s : State), (∃ e, decode w = .error e) → Ready s →
    runWord w s = .next { s with fault := true, cause := 2#8, finfo := w }) ∧
  (∀ w : Word, wordOp w ∉ [0x01#8, 0x02#8, 0x10#8, 0x11#8, 0x12#8, 0x20#8, 0x21#8] →
    decode w = .error (.unassignedOp (wordOp w))) ∧
  ((List.range 256).countP fun n => !opAssigned (BitVec.ofNat 8 n)) = 249 ∧
  (∀ w : Word, wordOp w ∈ [0x01#8, 0x10#8] → w.extractLsb' 0 24 ≠ 0#24 → decode w = .error (.mustBeZero (wordOp w))) ∧
  (∀ w : Word, wordOp w ∈ [0x02#8, 0x11#8] → w.extractLsb' 8 16 ≠ 0#16 → decode w = .error (.mustBeZero (wordOp w))) ∧
  (∀ w : Word, wordOp w ∈ [0x12#8, 0x20#8, 0x21#8] → ∃ i, decode w = .ok i) ∧
  (∀ w ∈ [0x00000000#32, 0xFFFFFFFF#32, 0x01000001#32, 0x02000141#32], ∃ e, decode w = .error e)

/-- A few words written out from the encodings of `30_encoding.md` R43 and R47 decode to the commands they stand for. -/
def Obligations.SpecWordsDecode : Prop :=
  decode 0x01000000#32 = .ok .bclr ∧ decode 0x020000FF#32 = .ok (.bpush 0xFF#8) ∧
  decode 0x10000000#32 = .ok .cinit ∧ decode 0x11000041#32 = .ok (.cbyte 0x41#8) ∧
  decode 0x12FFFF02#32 = .ok (.crc 0xFFFF#16 2#8) ∧ decode 0x20000404#32 = .ok (.enc 4#16 4#8) ∧
  decode 0x210000FF#32 = .ok (.frame 0#16 0xFF#8) ∧ decode 0x0100FF00#32 = .error (.mustBeZero 0x01#8) ∧
  decode 0x13000000#32 = .error (.unassignedOp 0x13#8)

/-- `30_encoding.md` R55 and R56: a line of program text is a command exactly when its operands are its format's and each is
in range, and every command has a line that stands for it. -/
def Obligations.AssembleExactlyWellFormedLines : Prop :=
  (∀ l : AsmLine, (∃ i, assemble l = some i) ↔ l.wf = true) ∧ (∀ i : Instr, assemble i.asmLine = some i)

/-! ### One step (`00_scope.md` R7, R8; `60_exceptions.md`) -/

/-- A step at a command boundary, with a word of the host's next that decodes to `i`, is `exec i` on the state with that
presentation taken off the host's list, halted or not. -/
def Obligations.StepRunsDecodedCommand : Prop :=
  ∀ (s : State) (w : Word) (i : Instr) (rest : List PortInput), s.phase = .idle →
    s.host = { rst := false, cmd := some w } :: rest → decode w = .ok i → step s = exec i { s with host := rest }

/-- `00_scope.md` R7: the block "does nothing until the host gives it a command word or asserts reset". -/
def Obligations.StepWaitsForTheHost : Prop :=
  ∀ s : State, s.phase = .idle →
    (s.host = [] → step s = .next s) ∧
    (∀ rest, s.host = { rst := false, cmd := none } :: rest → step s = .next { s with host := rest })

/-- R115: a step on a word that matches no row raises `IllegalCommand`, code 2, and "Nothing of the word is executed". -/
def Obligations.IllegalCommandEntry : Prop :=
  ∀ (s : State) (w : Word) (rest : List PortInput), Ready s → s.host = { rst := false, cmd := some w } :: rest →
    (∀ r ∈ opcodeMap, w &&& r.mask ≠ r.pattern) →
    step s = .next { s with fault := true, cause := 2#8, finfo := w, host := rest }

/-- R122: "While `fault = 1` every command word, legal or not, is ignored"; the block stays halted until reset. -/
def Obligations.HaltedIgnoresEveryWord : Prop :=
  ∀ s : State, s.phase = .idle → s.fault = true →
    (∀ w, runWord w s = .next s) ∧ (∀ i, exec i s = .next s) ∧
    (∀ p rest, s.host = p :: rest → p.rst = false → step s = .next { s with host := rest })

/-- R131: reset at a command boundary, in every state, sets these registers and does not write `buf`; nothing is said of the
latches, which R25 leaves unspecified. It wins over a coinciding word (`60_exceptions.md` R120): `p.cmd` is arbitrary. -/
def Obligations.ResetStepState : Prop :=
  ∀ (s : State) (p : PortInput) (rest : List PortInput), s.phase = .idle → s.host = p :: rest → p.rst = true →
    ∃ t, step s = .next t ∧ t = { s with
      acc := 0x00#8, blen := 0#16, fault := false, cause := 0#8, finfo := 0x00000000#32, tx := [],
      phase := .idle, idx := 0#8, sOff := t.sOff, sLen := t.sLen, host := rest }

/-- `70_reset_and_hazards.md` R132: "two resets in a row equal one", with or without words on `cmd`. -/
def Obligations.TwoResetsEqualOne : Prop :=
  ∀ (s : State) (p q : PortInput) (rest : List PortInput), s.phase = .idle → s.host = p :: q :: rest →
    p.rst = true → q.rst = true →
    ∃ t u, step s = .next t ∧ step t = .next u ∧ u = { t with host := rest }

/-- R25, the values the spec gives for reset. It gives none for `buf`, `s_off` and `s_len`, and nothing is said of them. -/
def Obligations.ResetStateValues : Prop :=
  State.reset.acc = 0x00#8 ∧ State.reset.blen = 0#16 ∧ State.reset.fault = false ∧ State.reset.cause = 0#8 ∧
  State.reset.finfo = 0x00000000#32 ∧ State.reset.tx = [] ∧ State.reset.phase = .idle ∧ State.reset.idx = 0#8

/-- `20_memory.md` R31: the valid sub-ranges, in natural numbers, and what follows: a valid one touches only addresses below
`blen`; the empty one at the very end is valid and the next is not; `(0, 0)` always is; `CRC`, `ENC` and `FRAME` check it
first and raise `InvalidRange`, code 1, where it fails. -/
def Obligations.SubRangeCheck : Prop :=
  ∀ (s : State) (off : Half) (len : Byte),
    (validRange s off len = true ↔ off.toNat + len.toNat ≤ s.blen.toNat) ∧
    (validRange s off len = true → ∀ i, i < len.toNat → off.toNat + i < s.blen.toNat) ∧
    (validRange s off 0#8 = true ↔ off.toNat ≤ s.blen.toNat) ∧
    validRange s s.blen 0#8 = true ∧
    (off.toNat = s.blen.toNat + 1 → validRange s off 0#8 = false) ∧
    validRange s 0#16 0#8 = true ∧ off.toNat + len.toNat ≤ 65790 ∧
    (Ready s → validRange s off len = false → ∀ i ∈ [Instr.crc off len, .enc off len, .frame off len],
      exec i s = .next (withRecord 1#8 (encode i) s))

/-- R114: `CRC`, `ENC` and `FRAME` on an invalid sub-range raise `InvalidRange`, code 1, with the command word, before
anything else: `acc`, `buf`, `blen` and `tx` are as they were, and `off` and `len` can be read back from `finfo`. -/
def Obligations.InvalidRangeEntry : Prop :=
  ∀ (s : State) (off : Half) (len : Byte), Ready s → s.blen.toNat < off.toNat + len.toNat →
    exec (.crc off len) s = .next { s with
      fault := true, cause := 1#8, finfo := 0x12000000#32 ||| (off.setWidth 32 <<< 8) ||| len.setWidth 32 } ∧
    exec (.enc off len) s = .next { s with
      fault := true, cause := 1#8, finfo := 0x20000000#32 ||| (off.setWidth 32 <<< 8) ||| len.setWidth 32 } ∧
    exec (.frame off len) s = .next { s with
      fault := true, cause := 1#8, finfo := 0x21000000#32 ||| (off.setWidth 32 <<< 8) ||| len.setWidth 32 } ∧
    ∀ i ∈ [Instr.crc off len, .enc off len, .frame off len], ∃ t, exec i s = .next t ∧
      t.finfo.extractLsb' 8 16 = off ∧ t.finfo.extractLsb' 0 8 = len

/-- R113: the block raises exactly three synchronous faults; the table of their codes, conditions and records. Its row 0
(`fault = 0` with `cause` and `finfo` 0) holds in states that meet the invariant. -/
def Obligations.ExactlyThreeFaults : Prop :=
  ∀ (s : State) (w : Word), Inv s → s.fault = false → ∃ t, runWord w s = .next t ∧
    (t.fault = false → t.cause = 0#8 ∧ t.finfo = 0#32) ∧
    (t.fault = true → t.finfo = w) ∧
    ((t.fault = true ∧ t.cause = 1#8) ↔ ∃ off len,
      (decode w = .ok (.crc off len) ∨ decode w = .ok (.enc off len) ∨ decode w = .ok (.frame off len)) ∧
      s.blen.toNat < off.toNat + len.toNat) ∧
    ((t.fault = true ∧ t.cause = 2#8) ↔ ∀ r ∈ opcodeMap, w &&& r.mask ≠ r.pattern) ∧
    ((t.fault = true ∧ t.cause = 3#8) ↔ ∃ d, decode w = .ok (.bpush d) ∧ s.blen.toNat = 256) ∧
    (t.fault = true → t.cause = 1#8 ∨ t.cause = 2#8 ∨ t.cause = 3#8)

/-- R121: faults are precise: whatever word raises one, only `fault`, `cause` and `finfo` change, and `finfo` is the word. -/
def Obligations.FaultEntryIsPrecise : Prop :=
  ∀ (s t : State) (w : Word), s.fault = false → runWord w s = .next t → t.fault = true →
    t = { s with fault := true, cause := t.cause, finfo := w } ∧ (t.cause = 1#8 ∨ t.cause = 2#8 ∨ t.cause = 3#8)

/-- R119: the order of tests for one command word, first match decides. -/
def Obligations.OrderOfTests : Prop :=
  ∀ (s : State) (w : Word), s.phase = .idle → Fits s →
    (s.fault = true → runWord w s = .next s) ∧
    (s.fault = false → (∀ r ∈ opcodeMap, w &&& r.mask ≠ r.pattern) →
      runWord w s = .next { s with fault := true, cause := 2#8, finfo := w }) ∧
    (s.fault = false → wordOp w ∈ [0x12#8, 0x20#8, 0x21#8] →
      s.blen.toNat < (wordOff w).toNat + (wordLow w).toNat →
      runWord w s = .next { s with fault := true, cause := 1#8, finfo := w }) ∧
    (s.fault = false → w &&& 0xFFFFFF00#32 = 0x02000000#32 → s.blen.toNat = 256 →
      runWord w s = .next { s with fault := true, cause := 3#8, finfo := w }) ∧
    (s.fault = false → (∃ r ∈ opcodeMap, w &&& r.mask = r.pattern) →
      ¬ (wordOp w ∈ [0x12#8, 0x20#8, 0x21#8] ∧ s.blen.toNat < (wordOff w).toNat + (wordLow w).toNat) →
      ¬ (w &&& 0xFFFFFF00#32 = 0x02000000#32 ∧ s.blen.toNat = 256) →
      ∃ i t, decode w = .ok i ∧ runWord w s = exec i s ∧ exec i s = .next t ∧ t.fault = false)

/-! ### The commands: results and completion -/

/-- R57: `BCLR` sets `blen` to 0 and changes nothing else; what follows for the buffer; `op = 0x01` with other bits set is
not `BCLR`. -/
def Obligations.BclrResult : Prop :=
  encode .bclr = 0x01000000#32 ∧
  (∀ s : State, Ready s → exec .bclr s = .next { s with blen := 0#16 }) ∧
  (∀ w : Word, wordOp w = 0x01#8 → w.extractLsb' 0 24 ≠ 0#24 → decode w = .error (.mustBeZero 0x01#8)) ∧
  (∀ s : State, Ready s → ∃ t, exec .bclr s = .next t ∧ exec .bclr t = .next t ∧
    (∀ off len, validRange t off len = true → len = 0#8) ∧
    (∀ d, ∃ u, exec (.bpush d) t = .next u ∧ u.fault = false ∧ u.blen = 1#16))

/-- R58, R116: `BPUSH d` stores `d` at the address `blen` had, adds 1 to `blen`, and changes nothing else; at `BUF_CAP` it
raises `BufferFull`, code 3, and neither stores the byte nor changes `blen`. -/
def Obligations.BpushResult : Prop :=
  (∀ d : Byte, encode (.bpush d) = 0x02000000#32 ||| d.setWidth 32) ∧
  (∀ (s : State) (d : Byte), Ready s → s.blen.toNat < 256 →
    ∃ t, exec (.bpush d) s = .next t ∧ t.blen.toNat = s.blen.toNat + 1 ∧
      bufByte t s.blen.toNat = d ∧ Memory.lookup s.blen.toNat t.buf = some d ∧
      (∀ a, a ≠ s.blen.toNat → bufByte t a = bufByte s a) ∧
      t = { s with buf := t.buf, blen := t.blen }) ∧
  (∀ (s : State) (d : Byte), Ready s → s.blen.toNat = 256 →
    exec (.bpush d) s = .next { s with fault := true, cause := 3#8, finfo := encode (.bpush d) })

/-- R67: `CINIT` sets `acc` to 0x00; "Nothing else changes". -/
def Obligations.CinitResult : Prop :=
  encode .cinit = 0x10000000#32 ∧ (∀ s : State, Ready s → exec .cinit s = .next { s with acc := 0x00#8 }) ∧
  (∀ s : State, Ready s → s.acc = 0x00#8 → exec .cinit s = .next s)

/-- R68: `CBYTE d` absorbs one byte into `acc`; its corner cases and examples. -/
def Obligations.CbyteResult : Prop :=
  (∀ d : Byte, encode (.cbyte d) = 0x11000000#32 ||| d.setWidth 32) ∧
  (∀ (s : State) (d : Byte), Ready s → exec (.cbyte d) s = .next { s with acc := crcByte 0x31#8 s.acc d }) ∧
  (∀ s : State, Ready s → s.acc = 0x00#8 → exec (.cbyte 0x00#8) s = .next s) ∧
  (∀ s : State, Ready s → exec (.cbyte s.acc) s = .next { s with acc := 0x00#8 }) ∧
  crcByte 0x31#8 0x00#8 0x41#8 = 0x0C#8 ∧ crcByte 0x31#8 0x0C#8 0x42#8 = 0x22#8

/-- R70: `CRC off, len` leaves in `acc` the CRC of the sub-range's bytes and changes nothing else; an invalid sub-range
faults with the word; the corner cases. -/
def Obligations.CrcResult : Prop :=
  (∀ (off : Half) (len : Byte),
    encode (.crc off len) = 0x12000000#32 ||| (off.setWidth 32 <<< 8) ||| len.setWidth 32) ∧
  (∀ (s : State) (off : Half) (len : Byte), Ready s → Fits s → off.toNat + len.toNat ≤ s.blen.toNat →
    exec (.crc off len) s = .next { s with acc := crcSeq 0x31#8 0x00#8 (slice s off.toNat len.toNat) }) ∧
  (∀ (s : State) (off : Half) (len : Byte), Ready s → s.blen.toNat < off.toNat + len.toNat →
    exec (.crc off len) s = .next { s with fault := true, cause := 1#8, finfo := encode (.crc off len) }) ∧
  (∀ (s : State) (off : Half), Ready s → Fits s → off.toNat ≤ s.blen.toNat →
    exec (.crc off 0#8) s = .next { s with acc := 0x00#8 }) ∧
  (∀ (s : State) (off : Half) (len : Byte), Ready s → Fits s → off.toNat + len.toNat ≤ s.blen.toNat →
    (∀ i, i < len.toNat → bufByte s (off.toNat + i) = 0x00#8) →
    exec (.crc off len) s = .next { s with acc := 0x00#8 }) ∧
  crcSeq 0x31#8 0x00#8 [] = 0x00#8 ∧ crcSeq 0x31#8 0x00#8 [0x41#8, 0x42#8, 0x43#8, 0x44#8] = 0x58#8 ∧
  crcSeq 0x31#8 0x00#8 [0x45#8, 0x46#8, 0x47#8, 0x48#8] = 0x81#8

/-- R79: `ENC off, len` appends exactly the `len + 4` bytes of the frame of the sub-range with `acc` as it is, and leaves
`acc`, `buf`, `blen` and the fault record; an invalid sub-range emits nothing and faults; a repeated `ENC` emits the same
frame again. -/
def Obligations.EncResult : Prop :=
  (∀ (off : Half) (len : Byte),
    encode (.enc off len) = 0x20000000#32 ||| (off.setWidth 32 <<< 8) ||| len.setWidth 32) ∧
  (∀ (s : State) (off : Half) (len : Byte), Ready s → Fits s → off.toNat + len.toNat ≤ s.blen.toNat →
    ∃ t f, exec (.enc off len) s = .next t ∧
      f = [0x8D#8, len] ++ slice s off.toNat len.toNat ++ [s.acc, 0x8F#8] ∧ f.length = len.toNat + 4 ∧
      frame Config.hw (slice s off.toNat len.toNat) s.acc = some f ∧ t.tx = s.tx ++ f ∧
      t.acc = s.acc ∧ t.buf = s.buf ∧ t.blen = s.blen ∧ t.fault = false ∧ t.cause = s.cause ∧ t.finfo = s.finfo ∧
      t.phase = .idle ∧ t.host = s.host ∧
      ∃ u, exec (.enc off len) t = .next u ∧ u.tx = s.tx ++ f ++ f) ∧
  (∀ (s : State) (off : Half) (len : Byte), Ready s → s.blen.toNat < off.toNat + len.toNat →
    exec (.enc off len) s = .next { s with fault := true, cause := 1#8, finfo := encode (.enc off len) })

/-- R82: `FRAME off, len` leaves the CRC of the sub-range in `acc`, appends the frame with that CRC, and leaves `buf`,
`blen` and the fault record; an invalid sub-range changes neither `acc` nor `tx` and faults; the empty sub-range gives
`acc = 0x00` and the frame 8D 00 00 8F. -/
def Obligations.FrameResult : Prop :=
  (∀ (off : Half) (len : Byte),
    encode (.frame off len) = 0x21000000#32 ||| (off.setWidth 32 <<< 8) ||| len.setWidth 32) ∧
  (∀ (s : State) (off : Half) (len : Byte), Ready s → Fits s → off.toNat + len.toNat ≤ s.blen.toNat →
    ∃ t c f, exec (.frame off len) s = .next t ∧ c = crcSeq 0x31#8 0x00#8 (slice s off.toNat len.toNat) ∧
      f = [0x8D#8, len] ++ slice s off.toNat len.toNat ++ [c, 0x8F#8] ∧ f.length = len.toNat + 4 ∧
      frame Config.hw (slice s off.toNat len.toNat) c = some f ∧ t.acc = c ∧ t.tx = s.tx ++ f ∧
      t.buf = s.buf ∧ t.blen = s.blen ∧ t.fault = false ∧ t.cause = s.cause ∧ t.finfo = s.finfo ∧
      t.phase = .idle ∧ t.host = s.host) ∧
  (∀ (s : State) (off : Half), Ready s → Fits s → off.toNat ≤ s.blen.toNat →
    ∃ t, exec (.frame off 0#8) s = .next t ∧ t.acc = 0x00#8 ∧ t.tx = s.tx ++ [0x8D#8, 0x00#8, 0x00#8, 0x8F#8]) ∧
  (∀ (s : State) (off : Half) (len : Byte), Ready s → s.blen.toNat < off.toNat + len.toNat →
    exec (.frame off len) s = .next { s with fault := true, cause := 1#8, finfo := encode (.frame off len) })

/-! ### Frames: what a command leaves as it was -/

/-- `BCLR`, `CINIT`, `CBYTE` and `CRC` store nothing and emit nothing: `buf`, every byte of it, `tx`, the sequencer and the
host's list are unchanged; `BCLR` leaves `acc`, the others leave `blen`; the fault record changes only where `CRC`'s range is
invalid, and then `acc` is unchanged (`10_state.md` R23). -/
def Obligations.RegisterCommandsFrame : Prop :=
  ∀ (i : Instr) (s t : State),
    (i = .bclr ∨ i = .cinit ∨ (∃ d, i = .cbyte d) ∨ ∃ off len, i = .crc off len) → exec i s = .next t →
    t.buf = s.buf ∧ (∀ a, bufByte t a = bufByte s a) ∧ t.tx = s.tx ∧ t.phase = s.phase ∧ t.idx = s.idx ∧
    t.sOff = s.sOff ∧ t.sLen = s.sLen ∧ t.host = s.host ∧
    (i = .bclr → t.acc = s.acc) ∧ (i ≠ .bclr → t.blen = s.blen) ∧
    ((∀ off len, i = .crc off len → validRange s off len = true) →
      t.fault = s.fault ∧ t.cause = s.cause ∧ t.finfo = s.finfo) ∧
    (∀ off len, i = .crc off len → validRange s off len = false → t.acc = s.acc)

/-- `BPUSH d` stores one byte, at the address `blen` had: every other address reads as before, and every address where it
stored nothing (a full buffer, a halted block); `acc`, `tx`, the sequencer and the host's list are unchanged; the fault
record changes only at a full buffer (`40_buffer_ops.md` R58, `10_state.md` R23). -/
def Obligations.BpushFrame : Prop :=
  ∀ (d : Byte) (s t : State), exec (.bpush d) s = .next t →
    (∀ a, s.blen.toNat = a → ∀ b, b ≠ a → bufByte t b = bufByte s b) ∧
    (s.fault = true ∨ s.blen.toNat = 256 → t.buf = s.buf ∧ t.blen = s.blen) ∧
    t.acc = s.acc ∧ t.tx = s.tx ∧ t.phase = s.phase ∧ t.idx = s.idx ∧ t.sOff = s.sOff ∧ t.sLen = s.sLen ∧
    t.host = s.host ∧
    (s.blen.toNat ≠ 256 → t.fault = s.fault ∧ t.cause = s.cause ∧ t.finfo = s.finfo)

/-- `ENC` and `FRAME` store nothing: `buf`, every byte of it, `blen`, the phase and the host's list are unchanged; `ENC`
leaves `acc`; on a valid sub-range the fault record is unchanged, on an invalid one `acc` and `tx` are (`10_state.md` R23). -/
def Obligations.EmittingCommandsFrame : Prop :=
  ∀ (i : Instr) (off : Half) (len : Byte) (s t : State), (i = .enc off len ∨ i = .frame off len) →
    exec i s = .next t →
    t.buf = s.buf ∧ (∀ a, bufByte t a = bufByte s a) ∧ t.blen = s.blen ∧ t.phase = s.phase ∧ t.host = s.host ∧
    (i = .enc off len → t.acc = s.acc) ∧ s.tx <+: t.tx ∧
    (validRange s off len = true → t.fault = s.fault ∧ t.cause = s.cause ∧ t.finfo = s.finfo) ∧
    (validRange s off len = false → t.acc = s.acc ∧ t.tx = s.tx)

/-! ### Commands in a row -/

/-- R83: `FRAME off, len` has exactly the effect of `CRC off, len` followed by `ENC off, len`; on an invalid sub-range both
leave `cause = 1` and the same `acc` and `tx`, and `finfo` holds the `FRAME` word in one case and the `CRC` word in the
other. -/
def Obligations.FrameIsCrcThenEnc : Prop :=
  (∀ (s : State) (off : Half) (len : Byte), Ready s → Fits s → off.toNat + len.toNat ≤ s.blen.toNat →
    ∃ t u, exec (.crc off len) s = .next t ∧ exec (.enc off len) t = .next u ∧ exec (.frame off len) s = .next u ∧
      u.fault = false) ∧
  (∀ (s : State) (off : Half) (len : Byte), Ready s → s.blen.toNat < off.toNat + len.toNat →
    ∃ t u v, exec (.crc off len) s = .next t ∧ exec (.enc off len) t = .next u ∧ exec (.frame off len) s = .next v ∧
      u = { v with finfo := encode (.crc off len) } ∧ v.finfo = encode (.frame off len) ∧
      v.cause = 1#8 ∧ v.acc = s.acc ∧ v.tx = s.tx)

/-- R84: `FRAME off, len` given `k` times appends `k` byte-identical frames, and `acc` is the same after each; and it appends
that same frame again after any commands but `BPUSH` and `BCLR` in between. -/
def Obligations.RetryInvariance : Prop :=
  ∀ (s : State) (off : Half) (len : Byte) (k : Nat), Ready s → Fits s → off.toNat + len.toNat ≤ s.blen.toNat →
    ∃ t u f, runWords (List.replicate k (encode (.frame off len))) s = .next t ∧
      exec (.frame off len) s = .next u ∧ u.tx = s.tx ++ f ∧
      t.tx = s.tx ++ (List.replicate k f).flatten ∧ (0 < k → t.acc = u.acc) ∧
      ∀ (ws : List Word) (v : State), (∀ w ∈ ws, LeavesBuffer w) → runWords ws u = .next v → v.fault = false →
        ∃ x, exec (.frame off len) v = .next x ∧ x.tx = v.tx ++ f ∧ x.acc = u.acc

/-- R59: after `k` successful pushes following a `BCLR` (or reset, whose `blen` is 0), `blen = k` and `buf[0 .. k)` is the
sequence of the pushed bytes in push order, whatever other commands stand between the pushes; `blen` never wraps and never
decreases except to 0, by a `BCLR` word or reset. -/
def Obligations.PushedSequence : Prop :=
  (∀ (s : State) (ds : List Byte), Ready s → ds.length ≤ 256 →
    ∃ t, runWords (encode .bclr :: ds.map fun d => encode (.bpush d)) s = .next t ∧ t.fault = false ∧
      t.blen.toNat = ds.length ∧ slice t 0 ds.length = ds) ∧
  (∀ (s : State) (ds : List Byte), Ready s → s.blen = 0#16 → ds.length ≤ 256 →
    ∃ t, runWords (ds.map fun d => encode (.bpush d)) s = .next t ∧ t.fault = false ∧
      t.blen.toNat = ds.length ∧ slice t 0 ds.length = ds) ∧
  (∀ (s t : State) (ws : List Word), Ready s → Fits s → (∀ w ∈ ws, decode w ≠ .ok .bclr) → runWords ws s = .next t →
    t.fault = false → t.blen.toNat = s.blen.toNat + (pushedBytes ws).length ∧
      slice t 0 t.blen.toNat = slice s 0 s.blen.toNat ++ pushedBytes ws) ∧
  (∀ s t : State, step s = .next t → t.blen = s.blen ∨
    ∃ p rest, s.phase = .idle ∧ s.host = p :: rest ∧
      ((t.blen = 0#16 ∧ (p.rst = true ∨ ∃ w, p.cmd = some w ∧ decode w = .ok .bclr)) ∨
       (t.blen.toNat = s.blen.toNat + 1 ∧ p.rst = false ∧ ∃ w d, p.cmd = some w ∧ decode w = .ok (.bpush d))))

/-- R69: `CINIT` and then one `CBYTE` per byte leaves the CRC of the bytes, whatever commands that do not write `acc` stand in
between, the same `acc` as `CRC off, n` in every state where they are `buf[off .. off+n)`. -/
def Obligations.StreamingEqualsRange : Prop :=
  (∀ (s : State) (ds : List Byte), Ready s →
    runWords (encode .cinit :: ds.map fun d => encode (.cbyte d)) s =
      .next { s with acc := crcSeq 0x31#8 0x00#8 ds }) ∧
  (∀ (s : State) (off : Half) (len : Byte), Ready s → Fits s → off.toNat + len.toNat ≤ s.blen.toNat →
    runWords (encode .cinit :: (slice s off.toNat len.toNat).map fun d => encode (.cbyte d)) s =
      exec (.crc off len) s) ∧
  (∀ (s t : State) (ws : List Word), Ready s → (∀ w ∈ ws, StreamsOn w) →
    runWords (encode .cinit :: ws) s = .next t → t.fault = false →
    t.acc = crcSeq 0x31#8 0x00#8 (absorbedBytes ws) ∧
    ∀ (v : State) (off : Half) (len : Byte), Ready v → Fits v → off.toNat + len.toNat ≤ v.blen.toNat →
      slice v off.toNat len.toNat = absorbedBytes ws → exec (.crc off len) v = .next { v with acc := t.acc })

/-! ### The CRC Engine's functions (`41_crc_engine.md`) -/

/-- R60: the bit step, in integers: test bit 7 before shifting, shift left modulo 256, XOR with `POLY` if it was 1. -/
def Obligations.CrcBitStep : Prop :=
  (∀ poly a : Byte, (crcBit poly a).toNat =
    if a.toNat / 128 % 2 = 1 then ((a.toNat <<< 1) &&& 0xFF) ^^^ poly.toNat else (a.toNat <<< 1) &&& 0xFF) ∧
  crcBit 0x31#8 0x00#8 = 0x00#8 ∧ crcBit 0x31#8 0x01#8 = 0x02#8 ∧ crcBit 0x31#8 0x40#8 = 0x80#8 ∧
  crcBit 0x31#8 0x80#8 = 0x31#8 ∧ crcBit 0x31#8 0xFF#8 = 0xCF#8

/-- R63: the byte step is one XOR and then exactly eight bit steps; the worked trace. -/
def Obligations.CrcByteStep : Prop :=
  (∀ poly a d : Byte, crcByte poly a d =
    crcBit poly (crcBit poly (crcBit poly (crcBit poly (crcBit poly (crcBit poly (crcBit poly
      (crcBit poly (a ^^^ d))))))))) ∧
  ((List.range 9).map fun k => crcBits 0x31#8 k (0x00#8 ^^^ 0x41#8)) =
    [0x41#8, 0x82#8, 0x35#8, 0x6A#8, 0xD4#8, 0x99#8, 0x03#8, 0x06#8, 0x0C#8]

/-- R64: the sequence function is the left fold of the byte step, and its two equivalent forms. -/
def Obligations.CrcSeqIsLeftFold : Prop :=
  ∀ (poly a d : Byte) (s t : List Byte),
    crcSeq poly a [] = a ∧ crcSeq poly a ([d] ++ s) = crcSeq poly (crcByte poly a d) s ∧
    crcSeq poly a (s ++ [d]) = crcByte poly (crcSeq poly a s) d ∧
    crcSeq poly a (s ++ t) = crcSeq poly (crcSeq poly a s) t ∧ crcSeq poly a s = s.foldl (crcByte poly) a

/-- R71: the CRC of a sub-range depends on its bytes and their order and on nothing else of the state, nor on the offset. -/
def Obligations.CrcDependsOnBytesOnly : Prop :=
  ∀ (s t : State) (off off' : Half) (len : Byte), Ready s → Ready t → Fits s → Fits t →
    off.toNat + len.toNat ≤ s.blen.toNat → off'.toNat + len.toNat ≤ t.blen.toNat →
    (∀ i, i < len.toNat → bufByte s (off.toNat + i) = bufByte t (off'.toNat + i)) →
    ∃ u v, exec (.crc off len) s = .next u ∧ exec (.crc off' len) t = .next v ∧ u.acc = v.acc

/-- R73: linearity, leading zeros, residue, for every `POLY`; bijections for every odd `POLY`. -/
def Obligations.CrcLaws : Prop :=
  (∀ (poly a b : Byte) (s t : List Byte), s.length = t.length →
    crcSeq poly (a ^^^ b) (xorSeq s t) = crcSeq poly a s ^^^ crcSeq poly b t) ∧
  (∀ poly a d : Byte, crcByte poly a d = crcByte poly 0x00#8 (a ^^^ d)) ∧
  (∀ (poly : Byte) (n : Nat) (s : List Byte),
    crcSeq poly 0x00#8 (List.replicate n 0x00#8 ++ s) = crcSeq poly 0x00#8 s ∧
    crcSeq poly 0x00#8 (List.replicate n 0x00#8) = 0x00#8) ∧
  crcSeq 0x31#8 0x00#8 [0x00#8, 0x41#8] = 0x0C#8 ∧ crcSeq 0x31#8 0x00#8 [0x41#8] = 0x0C#8 ∧
  (∀ (poly : Byte) (s : List Byte), crcSeq poly 0x00#8 (s ++ [crcSeq poly 0x00#8 s]) = 0x00#8) ∧
  (∀ poly : Byte, poly.getLsbD 0 = true →
    Function.Bijective (crcBit poly) ∧ ∀ d, Function.Bijective fun a => crcByte poly a d)

/-- R66: read as polynomials over GF(2), the CRC of a message is the remainder of M(x)·x^8 divided by G(x). -/
def Obligations.CrcIsPolynomialRemainder : Prop :=
  ∀ (poly : Byte) (s : List Byte),
    Gf2.bytePoly (crcSeq poly 0x00#8 s) = (Gf2.messagePoly s * Polynomial.X ^ 8) %ₘ Gf2.generatorPoly poly

/-- `41_crc_engine.md` R74: flipping any single bit of any sequence changes its CRC, for every odd `POLY`
(`90_conflicts.md` C6), 0x31 among them. -/
def Obligations.SingleBitFlipChangesCrc : Prop :=
  ∀ (poly : Byte) (s : List Byte) (k : Nat), poly.getLsbD 0 = true → k < 8 * s.length →
    crcSeq poly 0x00#8 (flipBit s k) ≠ crcSeq poly 0x00#8 s

/-- `41_crc_engine.md` R74 (ii): for `POLY = 0x31` every two-bit error whose bits are fewer than 127 positions apart changes
the CRC. -/
def Obligations.TwoBitErrorChangesCrc : Prop :=
  ∀ (s : List Byte) (j k : Nat), j < k → k < 8 * s.length → k - j < 127 →
    crcSeq 0x31#8 0x00#8 (flipBit (flipBit s j) k) ≠ crcSeq 0x31#8 0x00#8 s

/-- `41_crc_engine.md` R74 (i): for `POLY = 0x31` every error pattern with an odd number of flipped bits changes the CRC. -/
def Obligations.OddErrorChangesCrc : Prop :=
  ∀ s e : List Byte, s.length = e.length → seqWeight e % 2 = 1 →
    crcSeq 0x31#8 0x00#8 (xorSeq s e) ≠ crcSeq 0x31#8 0x00#8 s

/-- `41_crc_engine.md` R74 (iii): for `POLY = 0x31` every burst error confined to 8 consecutive bits changes the CRC. -/
def Obligations.BurstErrorChangesCrc : Prop :=
  ∀ (s : List Byte) (k : Nat) (b : Byte), b ≠ 0x00#8 → k + 8 ≤ 8 * s.length →
    crcSeq 0x31#8 0x00#8 (xorBurst s k b) ≠ crcSeq 0x31#8 0x00#8 s

/-- R75: the byte table holds the byte steps from 0, one lookup replaces the eight bit steps, and it is a permutation of the
bytes. -/
def Obligations.ByteTableReplacesBitSteps : Prop :=
  (∀ d : Byte, byteTable d = crcByte 0x31#8 0x00#8 d) ∧
  (∀ a d : Byte, crcByte 0x31#8 a d = byteTable (a ^^^ d)) ∧ Function.Bijective byteTable ∧
  byteTable 0x00#8 = 0x00#8 ∧ byteTable 0x01#8 = 0x31#8 ∧ byteTable 0x80#8 = 0x7A#8 ∧ byteTable 0xFF#8 = 0xAC#8

/-! ### The Frame Codec and the sequencer (`42_frame_encoder.md`) -/

/-- R77: the frame function on payloads of up to 255 bytes; above it is not defined. -/
def Obligations.FrameFunction : Prop :=
  (∀ (p : List Byte) (c : Byte), p.length ≤ 255 →
    frame Config.hw p c = some ([0x8D#8, BitVec.ofNat 8 p.length] ++ p ++ [c, 0x8F#8]) ∧
    (BitVec.ofNat 8 p.length).toNat = p.length) ∧
  (∀ (p : List Byte) (c : Byte), 255 < p.length → frame Config.hw p c = none)

/-- R78: the shape of a frame, element by element. -/
def Obligations.FrameShape : Prop :=
  ∀ (p f : List Byte) (c : Byte), frame Config.hw p c = some f →
    f.length = p.length + 4 ∧ f[0]? = some 0x8D#8 ∧ f[1]?.map BitVec.toNat = some p.length ∧
    (∀ i, i < p.length → f[2 + i]? = p[i]?) ∧ f[p.length + 2]? = some c ∧ f[p.length + 3]? = some 0x8F#8

/-- R87: one sequencer step, by phase: the byte emitted, the next phase, `idx` after, and nothing else; in a well-placed
frame neither `idx` nor the address read goes out of range. -/
def Obligations.SequencerStepTable : Prop :=
  ∀ s : State,
    (s.phase = .start → step s = .next { s with tx := s.tx ++ [0x8D#8], phase := .len, idx := 0#8 }) ∧
    (s.phase = .len → 0 < s.sLen.toNat →
      step s = .next { s with tx := s.tx ++ [s.sLen], phase := .payload, idx := 0#8 }) ∧
    (s.phase = .len → s.sLen.toNat = 0 →
      step s = .next { s with tx := s.tx ++ [s.sLen], phase := .crcb, idx := 0#8 }) ∧
    (s.phase = .payload → SeqInv s → s.idx.toNat + 1 < s.sLen.toNat →
      step s = .next { s with
        tx := s.tx ++ [bufByte s (s.sOff.toNat + s.idx.toNat)], phase := .payload, idx := s.idx + 1#8 }) ∧
    (s.phase = .payload → SeqInv s → s.idx.toNat + 1 = s.sLen.toNat →
      step s = .next { s with
        tx := s.tx ++ [bufByte s (s.sOff.toNat + s.idx.toNat)], phase := .crcb, idx := s.idx + 1#8 }) ∧
    (s.phase = .crcb → step s = .next { s with tx := s.tx ++ [s.acc], phase := .endm }) ∧
    (s.phase = .endm → step s = .next { s with tx := s.tx ++ [0x8F#8], phase := .idle, idx := 0#8 }) ∧
    (s.phase = .idle → seqStep Config.hw s = .next s) ∧
    (s.phase = .payload → SeqInv s →
      (s.idx + 1#8).toNat = s.idx.toNat + 1 ∧ s.sOff.toNat + s.idx.toNat < s.blen.toNat)

/-- R88: while `phase` is not `IDLE` the block accepts no command, and `acc`, `buf`, `blen`, `s_off`, `s_len` do not change;
the host's list waits. A command given to the meanings in that state is stuck (`93_implementation_defined.md` U9). -/
def Obligations.BusyBlockAcceptsNoCommand : Prop :=
  ∀ s : State, s.phase ≠ .idle →
    (∀ t, step s = .next t → t.acc = s.acc ∧ t.buf = s.buf ∧ t.blen = s.blen ∧ t.sOff = s.sOff ∧ t.sLen = s.sLen ∧
      t.fault = s.fault ∧ t.cause = s.cause ∧ t.finfo = s.finfo ∧ t.host = s.host) ∧
    (∀ i, exec i s = .fault .busy) ∧ (∀ w, runWord w s = .fault .busy) ∧ (∀ p, present p s = .fault .busy)

/-- `42_frame_encoder.md` R89: every frame in progress ends, within `s_len + 4` steps. -/
def Obligations.SequencerEnds : Prop :=
  ∀ s : State, SeqInv s → ∃ (k : Nat) (t : State), k ≤ s.sLen.toNat + 4 ∧ Host.Core.run Sys2Proof.core k s = .next t ∧
    t.phase = .idle ∧ SeqInv t

/-- R90: running the sequencer from its start until `IDLE` appends exactly `frame(buf[s_off .. s_off+s_len), acc)`, the same
bytes in the same order as the atomic rule, and leaves `acc`, `buf`, `blen` unchanged. -/
def Obligations.SequencerAgreesWithFrame : Prop :=
  ∀ (s : State) (off : Half) (len : Byte), s.phase = .idle → Fits s → off.toNat + len.toNat ≤ s.blen.toNat →
    ∃ t f, seqRun Config.hw (len.toNat + 4) (seqStart off len s) = .next t ∧
      (∀ k u, k < len.toNat + 4 → seqRun Config.hw k (seqStart off len s) = .next u → u.phase ≠ .idle) ∧
      frame Config.hw (slice s off.toNat len.toNat) s.acc = some f ∧ t.tx = s.tx ++ f ∧ t.phase = .idle ∧
      t.idx = 0#8 ∧ t.acc = s.acc ∧ t.buf = s.buf ∧ t.blen = s.blen ∧
      (s.fault = false → ∃ u, exec (.enc off len) s = .next u ∧ u.tx = t.tx)

/-- The byte-level machine refines the atomic one: `ENC` and `FRAME` started byte by byte and stepped `len + 4` times reach
the state the atomic command gives. The latches after the frame are the model's (log entry 4). -/
def Obligations.ByteLevelRefinesAtomic : Prop :=
  ∀ (s t : State) (i : Instr) (off : Half) (len : Byte), Ready s → Fits s → (i = .enc off len ∨ i = .frame off len) →
    exec i s = .next t →
    ∃ u, execBytes i s = .next u ∧
      (t.fault = true → u = t) ∧
      (t.fault = false → Host.Core.run Sys2Proof.core (len.toNat + 4) u = .next t)

/-! ### Invariants and whole-machine rules -/

/-- The reset state meets the invariant. -/
def Obligations.ResetMeetsInv : Prop := Inv State.reset ∧ WholeFrames State.reset.tx

/-- `10_state.md` R14, R26 (a) to (d), (g): every step keeps the invariant. -/
def Obligations.StepKeepsInv : Prop := ∀ s t : State, Inv s → step s = .next t → Inv t

/-- `00_scope.md` R8: the step is total on states that meet the invariant: whatever the host presents, there is a next
state. -/
def Obligations.StepAlwaysAnswers : Prop := ∀ s : State, Inv s → ∃ t, step s = .next t

/-- `10_state.md` R26 (e), R19: in every state, a step that is not a reset only appends to `tx`. -/
def Obligations.TxOnlyGrows : Prop :=
  ∀ s t : State, step s = .next t →
    s.tx <+: t.tx ∨ (∃ p rest, s.phase = .idle ∧ s.host = p :: rest ∧ p.rst = true ∧ t.tx = [])

/-- `10_state.md` R26 (f), `42_frame_encoder.md` R81: at command boundaries `tx` is a concatenation of whole frames, and every
step keeps it so. -/
def Obligations.StepKeepsWholeFrames : Prop :=
  ∀ s t : State, s.phase = .idle → WholeFrames s.tx → step s = .next t → WholeFrames t.tx

/-- `10_state.md` R14, `93_implementation_defined.md` U6 and U8: no step depends on bytes of `buf` from `blen` on or on the idle
latches: states that agree on the rest step to states that agree on it, so no port ever shows the difference. -/
def Obligations.UnreadableStateIsInvisible : Prop :=
  ∀ s t : State, s.phase = .idle → SameReadable s t → OutcomeRel SameReadable (step s) (step t)

/-- Only reset clears a fault (`10_state.md` R15, `70_reset_and_hazards.md` R132), and the record of the first fault is kept
until then (`60_exceptions.md` R122). -/
def Obligations.OnlyResetClearsFault : Prop :=
  ∀ s t : State, s.fault = true → step s = .next t →
    (t.fault = true ∧ t.cause = s.cause ∧ t.finfo = s.finfo) ∨
    (∃ p rest, s.phase = .idle ∧ s.host = p :: rest ∧ p.rst = true ∧ t.fault = false)

/-! ### The Transmission Session, host level (`44_host_sessions.md`) -/

/-- `44_host_sessions.md` R95, R96, R101 to R103: a payload that fits, loaded and sent with every chunk acknowledged at once:
after `n` acknowledged attempts the cursor is `4·n` and `tx` has grown by the frames of chunks 0 to n-1; `Done` is reached
exactly after `floor(L/4) + 1` frames, the last one empty where 4 divides `L`; the block never faults. The reading of an
acknowledgement and the grouping into attempts are the model's (log entries 9 and 12). -/
def Obligations.SessionSendsEveryChunk : Prop :=
  ∀ (s : State) (payload : List Byte) (n : Nat), Ready s → payload.length ≤ 256 → n ≤ payload.length / 4 + 1 →
    ∃ y, runSession payload (List.replicate n (some 0x90#8)) s = .next y ∧
      y.session.payload = payload ∧ y.session.cursor = 4 * n ∧
      (y.session.phase = .done ↔ n = payload.length / 4 + 1) ∧ y.block.fault = false ∧
      y.block.tx = s.tx ++ (List.range n).flatMap fun k => chunkFrame (chunk payload k)

/-- `44_host_sessions.md` R100: attempts that are not acknowledged, by a timeout or by any other byte, leave the session where
it was and send the identical frame again. The reading of an acknowledgement and the grouping into attempts are the model's
(log entries 9 and 12). -/
def Obligations.SessionRetriesIdenticalFrame : Prop :=
  ∀ (y : TxSystem) (reads : List (Option Byte)), y.session.phase = .sending →
    Ready y.block → Fits y.block → y.block.blen.toNat = y.session.payload.length →
    slice y.block 0 y.session.payload.length = y.session.payload → y.session.cursor ≤ y.session.payload.length →
    (∀ r ∈ reads, r ≠ some 0x90#8) →
    ∃ z, TxSystem.attempts reads y = .next z ∧ z.session = y.session ∧ z.block.fault = false ∧
      z.block.tx = y.block.tx ++ (List.replicate reads.length
        (chunkFrame ((y.session.payload.drop y.session.cursor).take 4))).flatten

/-- `44_host_sessions.md` R112: `fault = 1` is a failed run, and only reset continues. A session goes on only with a block that
has not faulted and fails only with one that has; on a halted block, without a reset, it fails at once; a payload longer than
the buffer fails with `BufferFull`, the push that did not fit on record and nothing emitted; and from any block, halted or not,
reset, reload and a run anew send every chunk. Loading a long payload unsplit is the model's choice (log entry 13), as are the
attempts (log entries 9 and 12) and the new start at cursor 0 (log entry 15). -/
def Obligations.SessionFailsOnFault : Prop :=
  (∀ (payload : List Byte) (reads : List (Option Byte)) (s : State) (y : TxSystem),
    (runSession payload reads s = .next y → y.block.fault = false) ∧
    (runSession payload reads s = .failed y → y.block.fault = true)) ∧
  (∀ (payload : List Byte) (reads : List (Option Byte)) (s : State), s.phase = .idle → s.fault = true →
    runSession payload reads s = .failed { session := TxSession.start payload, block := s }) ∧
  (∀ (payload : List Byte) (reads : List (Option Byte)) (s : State), Ready s → 256 < payload.length →
    ∃ y d, runSession payload reads s = .failed y ∧ payload[256]? = some d ∧
      y.block.fault = true ∧ y.block.cause = 3#8 ∧ y.block.finfo = encode (.bpush d) ∧ y.block.tx = s.tx ∧
      y.session = TxSession.start payload) ∧
  (∀ (s : State) (payload : List Byte) (n : Nat), s.phase = .idle → payload.length ≤ 256 →
    n ≤ payload.length / 4 + 1 →
    ∃ y, recoverSession payload (List.replicate n (some 0x90#8)) s = .next y ∧ y.block.fault = false ∧
      y.session.cursor = 4 * n ∧ (y.session.phase = .done ↔ n = payload.length / 4 + 1) ∧
      y.block.tx = (List.range n).flatMap fun k => chunkFrame (chunk payload k))
end

