-- ==== Sys2Proof/Laws/State.lean ====
section
/-! SUPPORT. One lemma per field per named update of the state, true by rfl, so that no proof unfolds an update. -/

namespace Sys2Proof.Machine

section
variable (bs : List Byte) (s : State)

@[simp] theorem emit_acc : (emit bs s).acc = s.acc := rfl
@[simp] theorem emit_buf : (emit bs s).buf = s.buf := rfl
@[simp] theorem emit_blen : (emit bs s).blen = s.blen := rfl
@[simp] theorem emit_fault : (emit bs s).fault = s.fault := rfl
@[simp] theorem emit_cause : (emit bs s).cause = s.cause := rfl
@[simp] theorem emit_finfo : (emit bs s).finfo = s.finfo := rfl
@[simp] theorem emit_tx : (emit bs s).tx = s.tx ++ bs := rfl
@[simp] theorem emit_phase : (emit bs s).phase = s.phase := rfl
@[simp] theorem emit_idx : (emit bs s).idx = s.idx := rfl
@[simp] theorem emit_sOff : (emit bs s).sOff = s.sOff := rfl
@[simp] theorem emit_sLen : (emit bs s).sLen = s.sLen := rfl
@[simp] theorem emit_host : (emit bs s).host = s.host := rfl

end

section
variable (f : FaultCause) (w : Word) (s : State)

@[simp] theorem raise_acc : (raise f w s).acc = s.acc := rfl
@[simp] theorem raise_buf : (raise f w s).buf = s.buf := rfl
@[simp] theorem raise_blen : (raise f w s).blen = s.blen := rfl
@[simp] theorem raise_fault : (raise f w s).fault = true := rfl
@[simp] theorem raise_cause : (raise f w s).cause = faultCode f := rfl
@[simp] theorem raise_finfo : (raise f w s).finfo = w := rfl
@[simp] theorem raise_tx : (raise f w s).tx = s.tx := rfl
@[simp] theorem raise_phase : (raise f w s).phase = s.phase := rfl
@[simp] theorem raise_idx : (raise f w s).idx = s.idx := rfl
@[simp] theorem raise_sOff : (raise f w s).sOff = s.sOff := rfl
@[simp] theorem raise_sLen : (raise f w s).sLen = s.sLen := rfl
@[simp] theorem raise_host : (raise f w s).host = s.host := rfl

end

section
variable (code : Byte) (w : Word) (s : State)

@[simp] theorem withRecord_acc : (withRecord code w s).acc = s.acc := rfl
@[simp] theorem withRecord_buf : (withRecord code w s).buf = s.buf := rfl
@[simp] theorem withRecord_blen : (withRecord code w s).blen = s.blen := rfl
@[simp] theorem withRecord_fault : (withRecord code w s).fault = true := rfl
@[simp] theorem withRecord_cause : (withRecord code w s).cause = code := rfl
@[simp] theorem withRecord_finfo : (withRecord code w s).finfo = w := rfl
@[simp] theorem withRecord_tx : (withRecord code w s).tx = s.tx := rfl
@[simp] theorem withRecord_phase : (withRecord code w s).phase = s.phase := rfl
@[simp] theorem withRecord_idx : (withRecord code w s).idx = s.idx := rfl
@[simp] theorem withRecord_sOff : (withRecord code w s).sOff = s.sOff := rfl
@[simp] theorem withRecord_sLen : (withRecord code w s).sLen = s.sLen := rfl
@[simp] theorem withRecord_host : (withRecord code w s).host = s.host := rfl

end

section
variable (s : State)

@[simp] theorem resetBlock_acc : (resetBlock s).acc = 0x00#8 := rfl
@[simp] theorem resetBlock_buf : (resetBlock s).buf = s.buf := rfl
@[simp] theorem resetBlock_blen : (resetBlock s).blen = 0#16 := rfl
@[simp] theorem resetBlock_fault : (resetBlock s).fault = false := rfl
@[simp] theorem resetBlock_cause : (resetBlock s).cause = 0#8 := rfl
@[simp] theorem resetBlock_finfo : (resetBlock s).finfo = 0x00000000#32 := rfl
@[simp] theorem resetBlock_tx : (resetBlock s).tx = [] := rfl
@[simp] theorem resetBlock_phase : (resetBlock s).phase = .idle := rfl
@[simp] theorem resetBlock_idx : (resetBlock s).idx = 0#8 := rfl
@[simp] theorem resetBlock_sOff : (resetBlock s).sOff = s.sOff := rfl
@[simp] theorem resetBlock_sLen : (resetBlock s).sLen = s.sLen := rfl
@[simp] theorem resetBlock_host : (resetBlock s).host = s.host := rfl

end

section
variable (off : Half) (len : Byte) (s : State)

@[simp] theorem latchRange_acc : (latchRange off len s).acc = s.acc := rfl
@[simp] theorem latchRange_buf : (latchRange off len s).buf = s.buf := rfl
@[simp] theorem latchRange_blen : (latchRange off len s).blen = s.blen := rfl
@[simp] theorem latchRange_fault : (latchRange off len s).fault = s.fault := rfl
@[simp] theorem latchRange_cause : (latchRange off len s).cause = s.cause := rfl
@[simp] theorem latchRange_finfo : (latchRange off len s).finfo = s.finfo := rfl
@[simp] theorem latchRange_tx : (latchRange off len s).tx = s.tx := rfl
@[simp] theorem latchRange_phase : (latchRange off len s).phase = s.phase := rfl
@[simp] theorem latchRange_idx : (latchRange off len s).idx = 0#8 := rfl
@[simp] theorem latchRange_sOff : (latchRange off len s).sOff = off := rfl
@[simp] theorem latchRange_sLen : (latchRange off len s).sLen = len := rfl
@[simp] theorem latchRange_host : (latchRange off len s).host = s.host := rfl

end

section
variable (off : Half) (len : Byte) (s : State)

@[simp] theorem seqStart_acc : (seqStart off len s).acc = s.acc := rfl
@[simp] theorem seqStart_buf : (seqStart off len s).buf = s.buf := rfl
@[simp] theorem seqStart_blen : (seqStart off len s).blen = s.blen := rfl
@[simp] theorem seqStart_fault : (seqStart off len s).fault = s.fault := rfl
@[simp] theorem seqStart_cause : (seqStart off len s).cause = s.cause := rfl
@[simp] theorem seqStart_finfo : (seqStart off len s).finfo = s.finfo := rfl
@[simp] theorem seqStart_tx : (seqStart off len s).tx = s.tx := rfl
@[simp] theorem seqStart_phase : (seqStart off len s).phase = .start := rfl
@[simp] theorem seqStart_idx : (seqStart off len s).idx = 0#8 := rfl
@[simp] theorem seqStart_sOff : (seqStart off len s).sOff = off := rfl
@[simp] theorem seqStart_sLen : (seqStart off len s).sLen = len := rfl
@[simp] theorem seqStart_host : (seqStart off len s).host = s.host := rfl

end

section
variable (c : Config) (off : Half) (len : Byte) (p : List Byte) (s : State)

@[simp] theorem emitFrame_acc : (emitFrame c off len p s).acc = s.acc := rfl
@[simp] theorem emitFrame_buf : (emitFrame c off len p s).buf = s.buf := rfl
@[simp] theorem emitFrame_blen : (emitFrame c off len p s).blen = s.blen := rfl
@[simp] theorem emitFrame_fault : (emitFrame c off len p s).fault = s.fault := rfl
@[simp] theorem emitFrame_cause : (emitFrame c off len p s).cause = s.cause := rfl
@[simp] theorem emitFrame_finfo : (emitFrame c off len p s).finfo = s.finfo := rfl
@[simp] theorem emitFrame_tx : (emitFrame c off len p s).tx = s.tx ++ frameBytes c len p s.acc := rfl
@[simp] theorem emitFrame_phase : (emitFrame c off len p s).phase = s.phase := rfl
@[simp] theorem emitFrame_idx : (emitFrame c off len p s).idx = 0#8 := rfl
@[simp] theorem emitFrame_sOff : (emitFrame c off len p s).sOff = off := rfl
@[simp] theorem emitFrame_sLen : (emitFrame c off len p s).sLen = len := rfl
@[simp] theorem emitFrame_host : (emitFrame c off len p s).host = s.host := rfl

end

section
variable (w : Word) (s : State)

@[simp] theorem placeWord_acc : (placeWord w s).acc = s.acc := rfl
@[simp] theorem placeWord_buf : (placeWord w s).buf = s.buf := rfl
@[simp] theorem placeWord_blen : (placeWord w s).blen = s.blen := rfl
@[simp] theorem placeWord_fault : (placeWord w s).fault = s.fault := rfl
@[simp] theorem placeWord_cause : (placeWord w s).cause = s.cause := rfl
@[simp] theorem placeWord_finfo : (placeWord w s).finfo = s.finfo := rfl
@[simp] theorem placeWord_tx : (placeWord w s).tx = s.tx := rfl
@[simp] theorem placeWord_phase : (placeWord w s).phase = .idle := rfl
@[simp] theorem placeWord_idx : (placeWord w s).idx = 0#8 := rfl
@[simp] theorem placeWord_sOff : (placeWord w s).sOff = s.sOff := rfl
@[simp] theorem placeWord_sLen : (placeWord w s).sLen = s.sLen := rfl
@[simp] theorem placeWord_host : (placeWord w s).host = { rst := false, cmd := some w } :: s.host := rfl

end

end Sys2Proof.Machine
end

