-- ==== Sys2Proof/Laws/Memory.lean ====
section
/-! SUPPORT. What the payload buffer's operations do: a read after a write, and the canonical form, which every operation
keeps. -/

namespace Sys2Proof.Machine

theorem lookup_insert_same (a : Nat) (v : Byte) (m : Memory) : Memory.lookup a (Memory.insert a v m) = some v := by
  induction m with
  | nil => simp [Memory.insert, Memory.lookup]
  | cons cell rest ih =>
    obtain ⟨k, b⟩ := cell
    simp only [Memory.insert]
    split
    · simp [Memory.lookup]
    · split
      · simp [Memory.lookup]
      · have hk : k ≠ a := by omega
        simp [Memory.lookup, hk, ih]

theorem lookup_insert_other {a b : Nat} (v : Byte) (m : Memory) (h : b ≠ a) :
    Memory.lookup b (Memory.insert a v m) = Memory.lookup b m := by
  induction m with
  | nil => simp [Memory.insert, Memory.lookup, h.symm]
  | cons cell rest ih =>
    obtain ⟨k, w⟩ := cell
    simp only [Memory.insert]
    split
    · simp [Memory.lookup, h.symm]
    · split
      · rename_i hak
        subst hak
        simp [Memory.lookup, h.symm]
      · simp [Memory.lookup, ih]

theorem risingFrom_mono {lo lo' cap : Nat} (h : lo' ≤ lo) {m : Memory} (hm : Memory.risingFrom lo cap m = true) :
    Memory.risingFrom lo' cap m = true := by
  cases m with
  | nil => rfl
  | cons cell rest =>
    obtain ⟨k, w⟩ := cell
    simp only [Memory.risingFrom, Bool.and_eq_true, decide_eq_true_eq] at hm ⊢
    exact ⟨⟨by omega, hm.1.2⟩, hm.2⟩

theorem risingFrom_insert {lo cap a : Nat} {v : Byte} {m : Memory} (hlo : lo ≤ a) (hcap : a < cap)
    (hm : Memory.risingFrom lo cap m = true) : Memory.risingFrom lo cap (Memory.insert a v m) = true := by
  induction m generalizing lo with
  | nil => simp [Memory.insert, Memory.risingFrom, hlo, hcap]
  | cons cell rest ih =>
    obtain ⟨k, w⟩ := cell
    simp only [Memory.risingFrom, Bool.and_eq_true, decide_eq_true_eq] at hm
    simp only [Memory.insert]
    split
    · simp only [Memory.risingFrom, Bool.and_eq_true, decide_eq_true_eq]
      exact ⟨⟨hlo, hcap⟩, ⟨by omega, hm.1.2⟩, hm.2⟩
    · split
      · rename_i hak
        subst hak
        simp only [Memory.risingFrom, Bool.and_eq_true, decide_eq_true_eq]
        exact ⟨⟨hlo, hcap⟩, hm.2⟩
      · simp only [Memory.risingFrom, Bool.and_eq_true, decide_eq_true_eq]
        exact ⟨hm.1, ih (by omega) hm.2⟩

/-- A write keeps the canonical form; it is the only operation that changes `buf`. -/
theorem wf_insert {cap a : Nat} {v : Byte} {m : Memory} (hcap : a < cap) (hm : Memory.wf cap m = true) :
    Memory.wf cap (Memory.insert a v m) = true := risingFrom_insert (Nat.zero_le a) hcap hm

/-- The reset state's buffer is in canonical form. -/
theorem wf_reset : Memory.wf Config.hw.bufCap State.reset.buf = true := rfl

/-- In canonical form no entry lies at an address that does not exist. -/
theorem lookup_above_cap {lo cap a : Nat} {m : Memory} (hm : Memory.risingFrom lo cap m = true) (ha : cap ≤ a) :
    Memory.lookup a m = none := by
  induction m generalizing lo with
  | nil => rfl
  | cons cell rest ih =>
    obtain ⟨k, w⟩ := cell
    simp only [Memory.risingFrom, Bool.and_eq_true, decide_eq_true_eq] at hm
    have hk : k ≠ a := by omega
    simp [Memory.lookup, hk, ih hm.2]

/-- Below a canonical list's first address nothing is listed. -/
theorem lookup_below {lo cap a : Nat} {m : Memory} (hm : Memory.risingFrom lo cap m = true) (ha : a < lo) :
    Memory.lookup a m = none := by
  induction m generalizing lo with
  | nil => rfl
  | cons cell rest ih =>
    obtain ⟨k, w⟩ := cell
    simp only [Memory.risingFrom, Bool.and_eq_true, decide_eq_true_eq] at hm
    have hk : k ≠ a := by omega
    simp [Memory.lookup, hk, ih hm.2 (by omega)]

/-- Equal memories are equal data: two canonical lists with the same lookups are the same list. -/
theorem canonical_ext {lo cap : Nat} {m n : Memory} (hm : Memory.risingFrom lo cap m = true)
    (hn : Memory.risingFrom lo cap n = true) (h : ∀ a, Memory.lookup a m = Memory.lookup a n) : m = n := by
  induction m generalizing lo n with
  | nil =>
    cases n with
    | nil => rfl
    | cons cell rest => simpa [Memory.lookup] using h cell.1
  | cons cell rest ih =>
    obtain ⟨k, v⟩ := cell
    simp only [Memory.risingFrom, Bool.and_eq_true, decide_eq_true_eq] at hm
    cases n with
    | nil => simpa [Memory.lookup] using h k
    | cons cell' rest' =>
      obtain ⟨k', v'⟩ := cell'
      simp only [Memory.risingFrom, Bool.and_eq_true, decide_eq_true_eq] at hn
      have hkk : k = k' := by
        rcases Nat.lt_trichotomy k k' with hlt | heq | hgt
        · have hk := h k
          have hne' : k' ≠ k := by omega
          rw [Memory.lookup, if_pos rfl, Memory.lookup, if_neg hne', lookup_below hn.2 (by omega)] at hk
          cases hk
        · exact heq
        · have hk := h k'
          have hne' : k ≠ k' := by omega
          rw [Memory.lookup, if_neg hne', Memory.lookup, if_pos rfl, lookup_below hm.2 (by omega)] at hk
          cases hk
      subst hkk
      have hv := h k
      simp only [Memory.lookup, if_true, Option.some.injEq] at hv
      subst hv
      refine congrArg _ (ih hm.2 hn.2 fun a => ?_)
      by_cases hak : k = a
      · subst hak
        rw [lookup_below hm.2 (by omega), lookup_below hn.2 (by omega)]
      · have ha := h a
        simpa [Memory.lookup, hak] using ha

theorem bufByte_congr {s t : State} (h : t.buf = s.buf) (a : Nat) : bufByte t a = bufByte s a := by
  simp [bufByte, h]

theorem slice_congr {s t : State} (h : t.buf = s.buf) (off n : Nat) : slice t off n = slice s off n := by
  simp [slice, bufByte, h]

@[simp] theorem slice_length (s : State) (off n : Nat) : (slice s off n).length = n := by simp [slice]

@[simp] theorem slice_zero (s : State) (off : Nat) : slice s off 0 = [] := rfl

theorem slice_succ (s : State) (off n : Nat) : slice s off (n + 1) = bufByte s off :: slice s (off + 1) n := by
  simp only [slice, List.range_succ_eq_map, List.map_cons, List.map_map, Nat.add_zero]
  refine congrArg _ (List.map_congr_left fun i _ => ?_)
  simp only [Function.comp]
  congr 1
  omega

/-- `MemRead` below the capacity gives the byte; above it there is no such address. -/
theorem memRead_ok {c : Config} {a : Nat} (s : State) (h : a < c.bufCap) : memRead c a s = .ok (bufByte s a) := if_pos h

/-- `MemWrite` below the capacity changes `buf` alone. -/
theorem memWrite_ok {c : Config} {a : Nat} (v : Byte) (s : State) (h : a < c.bufCap) :
    memWrite c a v s = .ok { s with buf := Memory.insert a v s.buf } := if_pos h

/-- Reading a run of existing addresses gives their bytes in order. -/
theorem readBytes_ok {c : Config} (s : State) {a n : Nat} (h : a + n ≤ c.bufCap) :
    readBytes c s a n = .ok (slice s a n) := by
  induction n generalizing a with
  | zero => rfl
  | succ n ih =>
    rw [readBytes, memRead_ok s (by omega), slice_succ]
    simp only [ih (a := a + 1) (by omega)]

/-- Whatever a read of a run of addresses answers is that run's bytes. -/
theorem readBytes_inv {c : Config} {s : State} {a n : Nat} {p : List Byte} (h : readBytes c s a n = .ok p) :
    p = slice s a n := by
  induction n generalizing a p with
  | zero =>
    simp only [readBytes, Except.ok.injEq] at h
    simp [h.symm]
  | succ n ih =>
    simp only [readBytes] at h
    split at h
    · cases h
    · rename_i b hb
      split at h
      · cases h
      · rename_i rest hrest
        simp only [Except.ok.injEq] at h
        have hba : b = bufByte s a := by
          unfold memRead at hb
          split at hb
          · simpa using hb.symm
          · cases hb
        rw [slice_succ, ← h, hba, ih hrest]

end Sys2Proof.Machine
end

