-- ==== Sys2Proof/Laws/Ops.lean ====
section
/-! SUPPORT. One lemma per shared operation that says everything it can do. -/

namespace Sys2Proof.Machine

theorem not_busy_iff {s : State} : busy s = false ↔ s.phase = .idle := by
  simp [busy]

theorem command_ready {s : State} (h : Ready s) (body : Res) : command s body = body := by
  simp [command, busy, halted, h.1, h.2]

theorem command_halted {s : State} (hi : s.phase = .idle) (hf : s.fault = true) (body : Res) :
    command s body = .next s := by
  simp [command, busy, halted, hi, hf]

theorem command_busy {s : State} (hb : s.phase ≠ .idle) (body : Res) : command s body = .fault .busy := by
  simp [command, busy, hb]

/-- What the common precondition can answer: a busy block's stop, a halted block's unchanged state, or the body's answer. -/
theorem command_cases (s : State) (body : Res) :
    (s.phase ≠ .idle ∧ command s body = .fault .busy) ∨
    (s.phase = .idle ∧ s.fault = true ∧ command s body = .next s) ∨ (Ready s ∧ command s body = body) := by
  by_cases hp : s.phase = .idle
  · cases hf : s.fault with
    | true => exact .inr (.inl ⟨hp, rfl, command_halted hp hf body⟩)
    | false => exact .inr (.inr ⟨⟨hp, hf⟩, command_ready ⟨hp, hf⟩ body⟩)
  · exact .inl ⟨hp, command_busy hp body⟩

/-- If the common precondition answers a next state, the block was idle, and it was halted and unchanged or ran the body. -/
theorem command_next {s t : State} {body : Res} (h : command s body = .next t) :
    s.phase = .idle ∧ ((s.fault = true ∧ t = s) ∨ (s.fault = false ∧ body = .next t)) := by
  rcases command_cases s body with ⟨_, hb⟩ | ⟨hi, hf, hb⟩ | ⟨hr, hb⟩
  · rw [hb] at h
    cases h
  · rw [hb] at h
    cases h
    exact ⟨hi, .inl ⟨hf, rfl⟩⟩
  · exact ⟨hr.1, .inr ⟨hr.2, hb ▸ h⟩⟩

/-- On this hardware the range function is the sequence function from 0x00, with no final XOR. -/
@[simp] theorem computeCrc_hw (p : List Byte) : computeCrc Config.hw p = crcSeq 0x31#8 0x00#8 p := by
  simp [computeCrc, Config.hw]

/-- A command word, an offset with `blen`, and a length have the widths the configuration names. -/
theorem type_widths : Word = BitVec Config.hw.cmdW ∧ Half = BitVec Config.hw.offW ∧ Byte = BitVec Config.hw.lenW :=
  ⟨rfl, rfl, rfl⟩

/-- What the range check can answer: `InvalidRange`, the body on the sub-range's bytes, or, where the range reaches past the
last existing address, the stop for it. -/
theorem withRange_cases (c : Config) (w : Word) (off : Half) (len : Byte) (s : State) (body : List Byte → Res) :
    (s.blen.toNat < off.toNat + len.toNat ∧ withRange c w off len s body = .next (raise .invalidRange w s)) ∨
    (off.toNat + len.toNat ≤ s.blen.toNat ∧
      withRange c w off len s body = body (slice s off.toNat len.toNat)) ∨
    (off.toNat + len.toNat ≤ s.blen.toNat ∧ ∃ f, withRange c w off len s body = .fault f) := by
  unfold withRange
  by_cases hv : off.toNat + len.toNat ≤ s.blen.toNat
  · simp only [validRange, hv, decide_true, if_true]
    cases hr : readBytes c s off.toNat len.toNat with
    | ok p => exact .inr (.inl ⟨trivial, by rw [readBytes_inv hr]⟩)
    | error f => exact .inr (.inr ⟨trivial, f, rfl⟩)
  · refine .inl ⟨by omega, ?_⟩
    simp [validRange, hv]

/-- Where `blen` fits the buffer, a valid sub-range hands exactly its bytes to the body. -/
theorem withRange_valid {c : Config} {w : Word} {off : Half} {len : Byte} {s : State} {body : List Byte → Res}
    (hfit : s.blen.toNat ≤ c.bufCap) (hv : off.toNat + len.toNat ≤ s.blen.toNat) :
    withRange c w off len s body = body (slice s off.toNat len.toNat) := by
  unfold withRange
  simp only [validRange, hv, decide_true, if_true, readBytes_ok s (Nat.le_trans hv hfit)]

theorem withRange_invalid {c : Config} {w : Word} {off : Half} {len : Byte} {s : State} {body : List Byte → Res}
    (hv : s.blen.toNat < off.toNat + len.toNat) :
    withRange c w off len s body = .next (raise .invalidRange w s) := by
  have hn : ¬ off.toNat + len.toNat ≤ s.blen.toNat := by omega
  simp [withRange, validRange, hn]

/-- If a byte is pushed with an answer, the buffer was full and the fault recorded, or the byte stands at `blen`. -/
theorem pushByte_cases (c : Config) (w : Word) (d : Byte) (s : State) :
    (s.blen.toNat = c.bufCap ∧ pushByte c w d s = .next (raise .bufferFull w s)) ∨
    (s.blen.toNat < c.bufCap ∧
      pushByte c w d s = .next { s with buf := Memory.insert s.blen.toNat d s.buf, blen := s.blen + 1#16 }) ∨
    (c.bufCap < s.blen.toNat ∧ pushByte c w d s = .fault (.noSuchAddress s.blen.toNat)) := by
  unfold pushByte
  rcases Nat.lt_trichotomy s.blen.toNat c.bufCap with hlt | heq | hgt
  · have hne : s.blen.toNat ≠ c.bufCap := by omega
    exact .inr (.inl ⟨hlt, by simp [memWrite, hlt, hne]⟩)
  · exact .inl ⟨heq, by simp [heq]⟩
  · have hne : s.blen.toNat ≠ c.bufCap := by omega
    have hn : ¬ s.blen.toNat < c.bufCap := by omega
    exact .inr (.inr ⟨hgt, by simp [memWrite, hn, hne]⟩)

/-- Reset beats a coinciding word. -/
theorem present_rst {p : PortInput} {s : State} (hi : s.phase = .idle) (hr : p.rst = true) :
    present p s = .next (resetBlock s) := by
  simp [present, busy, hi, hr]

/-- With neither `rst` nor a word the block holds its state. -/
theorem present_none {p : PortInput} {s : State} (hi : s.phase = .idle) (hr : p.rst = false) (hc : p.cmd = none) :
    present p s = .next s := by
  simp [present, busy, hi, hr, hc]

/-- A word with no reset is run. -/
theorem present_word {p : PortInput} {s : State} {w : Word} (hi : s.phase = .idle) (hr : p.rst = false)
    (hc : p.cmd = some w) : present p s = runWord w s := by
  simp [present, busy, hi, hr, hc]

/-- What a word does: it is ignored by a halted block, raises `IllegalCommand`, or is the command it decodes to. -/
theorem runWord_cases {w : Word} {s : State} (hi : s.phase = .idle) :
    (s.fault = true ∧ runWord w s = .next s) ∨
    (s.fault = false ∧ (∃ e, decode w = .error e) ∧ runWord w s = .next (raise .illegalCommand w s)) ∨
    (s.fault = false ∧ ∃ i, decode w = .ok i ∧ runWord w s = exec i s) := by
  unfold runWord
  cases hf : s.fault with
  | true => exact .inl ⟨rfl, command_halted hi hf _⟩
  | false =>
    rw [command_ready ⟨hi, hf⟩]
    cases hd : decode w with
    | error e => exact .inr (.inl ⟨rfl, ⟨e, rfl⟩, rfl⟩)
    | ok i => exact .inr (.inr ⟨rfl, i, rfl, rfl⟩)

/-- A step of an idle block takes the host's next presentation, or waits where there is none. -/
theorem step_idle {s : State} (hi : s.phase = .idle) :
    (s.host = [] ∧ step s = .next s) ∨
    (∃ p rest, s.host = p :: rest ∧ step s = present p { s with host := rest }) := by
  unfold step stepBlock takeInput
  cases hh : s.host with
  | nil => exact .inl ⟨rfl, by simp [busy, hi]⟩
  | cons p rest => exact .inr ⟨p, rest, rfl, by simp [busy, hi]⟩

/-- A step of a busy block is a step of the sequencer. -/
theorem step_busy {s : State} (hb : s.phase ≠ .idle) : step s = seqStep Config.hw s := by
  simp [step, stepBlock, busy, hb]

/-- If the sequencer answers a next state, it moved `tx`, `phase` and `idx` alone, and `tx` only by appending. -/
theorem seqStep_next {c : Config} {s t : State} (h : seqStep c s = .next t) :
    ∃ bs, t = { s with tx := s.tx ++ bs, phase := t.phase, idx := t.idx } := by
  unfold seqStep at h
  cases hp : s.phase with
  | idle =>
    simp only [hp, Host.Outcome.next.injEq] at h
    subst h
    exact ⟨[], by simp⟩
  | start =>
    simp only [hp, Host.Outcome.next.injEq] at h
    subst h
    exact ⟨_, rfl⟩
  | len =>
    simp only [hp, Host.Outcome.next.injEq] at h
    subst h
    exact ⟨_, rfl⟩
  | payload =>
    simp only [hp] at h
    split at h
    · cases h
    · simp only [Host.Outcome.next.injEq] at h
      subst h
      exact ⟨_, rfl⟩
  | crcb =>
    simp only [hp, Host.Outcome.next.injEq] at h
    subst h
    exact ⟨_, rfl⟩
  | endm =>
    simp only [hp, Host.Outcome.next.injEq] at h
    subst h
    exact ⟨_, rfl⟩

end Sys2Proof.Machine
end

