-- ==== Sys2Proof/Laws/Exec.lean ====
section
/-! SUPPORT. What one command and one step at a command boundary can do, said once: a proof about every command or every step
cites these two instead of unfolding a meaning. -/

namespace Sys2Proof.Machine

/-- Everything a command that meets a running block can leave: its fault record, or its effect. -/
def Effect (s t : State) : Instr → Prop
  | .bclr => t = { s with blen := 0#16 }
  | .bpush d =>
    (s.blen.toNat = Config.hw.bufCap ∧ t = raise .bufferFull (encode (.bpush d)) s) ∨
    (s.blen.toNat < Config.hw.bufCap ∧
      t = { s with buf := Memory.insert s.blen.toNat d s.buf, blen := s.blen + 1#16 })
  | .cinit => t = { s with acc := 0x00#8 }
  | .cbyte d => t = { s with acc := crcByte Config.hw.poly s.acc d }
  | .crc off len =>
    (s.blen.toNat < off.toNat + len.toNat ∧ t = raise .invalidRange (encode (.crc off len)) s) ∨
    (off.toNat + len.toNat ≤ s.blen.toNat ∧ t = { s with acc := computeCrc Config.hw (slice s off.toNat len.toNat) })
  | .enc off len =>
    (s.blen.toNat < off.toNat + len.toNat ∧ t = raise .invalidRange (encode (.enc off len)) s) ∨
    (off.toNat + len.toNat ≤ s.blen.toNat ∧ t = emitFrame Config.hw off len (slice s off.toNat len.toNat) s)
  | .frame off len =>
    (s.blen.toNat < off.toNat + len.toNat ∧ t = raise .invalidRange (encode (.frame off len)) s) ∨
    (off.toNat + len.toNat ≤ s.blen.toNat ∧
      t = emitFrame Config.hw off len (slice s off.toNat len.toNat)
        { s with acc := computeCrc Config.hw (slice s off.toNat len.toNat) })

/-- What a checked sub-range command can leave. -/
theorem command_range_next {c : Config} {w : Word} {off : Half} {len : Byte} {s t : State} {f : List Byte → State}
    (h : command s (withRange c w off len s fun p => .next (f p)) = .next t) (hf : s.fault = false) :
    (s.blen.toNat < off.toNat + len.toNat ∧ t = raise .invalidRange w s) ∨
    (off.toNat + len.toNat ≤ s.blen.toNat ∧ t = f (slice s off.toNat len.toNat)) := by
  obtain ⟨-, ⟨hf', -⟩ | ⟨-, h⟩⟩ := command_next h
  · simp [hf] at hf'
  · rcases withRange_cases c w off len s (fun p => .next (f p)) with ⟨hv, e⟩ | ⟨hv, e⟩ | ⟨hv, r, e⟩ <;> rw [e] at h <;> cases h
    · exact .inl ⟨hv, rfl⟩
    · exact .inr ⟨hv, rfl⟩

/-- A command that answers a next state found the block at a command boundary, and either the block was halted and the state
is as it was, or the command had its effect. -/
theorem exec_next {i : Instr} {s t : State} (h : exec i s = .next t) :
    s.phase = .idle ∧ ((s.fault = true ∧ t = s) ∨ (s.fault = false ∧ Effect s t i)) := by
  have key : ∀ body, command s body = .next t → (s.fault = false → Effect s t i) →
      s.phase = .idle ∧ ((s.fault = true ∧ t = s) ∨ (s.fault = false ∧ Effect s t i)) := fun body hc he => by
    obtain ⟨hp, h | ⟨hf, -⟩⟩ := command_next hc
    · exact ⟨hp, .inl h⟩
    · exact ⟨hp, .inr ⟨hf, he hf⟩⟩
  refine match i, h, key with
    | .bclr, h, key | .cinit, h, key | .cbyte _, h, key => key _ h fun hf => ?_
    | .bpush d, h, key => key _ h fun hf => ?_
    | .crc _ _, h, key | .enc _ _, h, key | .frame _ _, h, key => key _ h (command_range_next h)
  iterate 3
    obtain ⟨-, ⟨hf', -⟩ | ⟨-, h⟩⟩ := command_next h
    · simp [hf] at hf'
    · cases h; rfl
  obtain ⟨-, ⟨hf', -⟩ | ⟨-, h⟩⟩ := command_next h
  · simp [hf] at hf'
  · rcases pushByte_cases Config.hw (encode (.bpush d)) d s with ⟨a, e⟩ | ⟨a, e⟩ | ⟨a, e⟩ <;> rw [e] at h <;> cases h
    · exact .inl ⟨a, rfl⟩
    · exact .inr ⟨a, rfl⟩

/-- A step at a command boundary: nothing presented; or the host's next presentation `p` taken off its list, and then a reset,
or nothing, or a word that is ignored, is illegal, or is a command. -/
theorem step_idle_next {s t : State} (hi : s.phase = .idle) (h : step s = .next t) :
    t = s ∨ ∃ p rest u, s.host = p :: rest ∧ u = { s with host := rest } ∧
      ((p.rst = true ∧ t = resetBlock u) ∨ (p.rst = false ∧ p.cmd = none ∧ t = u) ∨
       (p.rst = false ∧ ∃ w, p.cmd = some w ∧
         ((s.fault = true ∧ t = u) ∨
          (s.fault = false ∧ (∃ e, decode w = .error e) ∧ t = raise .illegalCommand w u) ∨
          (s.fault = false ∧ ∃ i, decode w = .ok i ∧ exec i u = .next t)))) := by
  rcases step_idle hi with ⟨_, hs⟩ | ⟨p, rest, hh, hs⟩ <;> rw [hs] at h
  · cases h; exact .inl rfl
  · refine .inr ⟨p, rest, _, hh, rfl, ?_⟩
    generalize hu : ({ s with host := rest } : State) = u at h ⊢
    have hf : u.fault = s.fault := by subst hu; rfl
    have hi' : u.phase = .idle := by subst hu; exact hi
    rw [← hf]
    cases hr : p.rst with
    | true => rw [present_rst hi' hr] at h; cases h; exact .inl ⟨rfl, rfl⟩
    | false =>
      refine .inr ?_
      cases hc : p.cmd with
      | none => rw [present_none hi' hr hc] at h; cases h; exact .inl ⟨rfl, rfl, rfl⟩
      | some w =>
        refine .inr ⟨rfl, w, rfl, ?_⟩
        rw [present_word hi' hr hc] at h
        rcases runWord_cases (w := w) hi' with ⟨hf, e⟩ | ⟨hf, he, e⟩ | ⟨hf, i, hd, e⟩ <;> rw [e] at h
        · cases h; exact .inl ⟨hf, rfl⟩
        · cases h; exact .inr (.inl ⟨hf, he, rfl⟩)
        · exact .inr (.inr ⟨hf, i, hd, h⟩)

end Sys2Proof.Machine
end

