-- ==== Sys2Proof/Laws/PerInstr.lean ====
section
/-! SUPPORT. Per-instruction statements about syntax. RowMatch: the word of a command is a word of its row of the opcode map
(`30_encoding.md` R47). -/

namespace Sys2Proof.Laws.RowMatch

/-- The word of a command agrees with its row of the opcode map on the row's mask. -/
def Statement (i : Instr) : Prop := (opRow i.mnemonic).selects (encode i) = true

/-- A value all of whose bits lie below bit `k` has nothing under a mask of the bits from `k` on. -/
theorem and_high_mask {x : Word} {k : Nat} (h : ∀ i, k ≤ i → x.getLsbD i = false) :
    (BitVec.allOnes 32 <<< k) &&& x = 0#32 := by
  ext i hi
  simp only [← BitVec.getLsbD_eq_getElem]
  by_cases hk : i < k
  · simp [hk]
  · simp [h i (by omega)]

/-- A format B operand lies outside its row's mask. -/
theorem low_byte_unmasked {k : Nat} (d : Byte) (hk : 8 ≤ k) : (BitVec.allOnes 32 <<< k) &&& d.setWidth 32 = 0#32 :=
  and_high_mask fun i hi => by simp [BitVec.getLsbD_setWidth, BitVec.getLsbD_of_ge d i (by omega)]

/-- A format R offset lies outside its row's mask. -/
theorem offset_unmasked (off : Half) : (BitVec.allOnes 32 <<< 24) &&& (off.setWidth 32 <<< 8) = 0#32 :=
  and_high_mask fun i hi => by
    simp [BitVec.getLsbD_shiftLeft, BitVec.getLsbD_setWidth, BitVec.getLsbD_of_ge off (i - 8) (by omega)]

theorem formatB {m : Mnemonic} (d : Byte) (hm : (opRow m).mask = BitVec.allOnes 32 <<< 8)
    (hp : (opRow m).mask &&& (opRow m).pattern = (opRow m).pattern) : (opRow m).selects (encodeB m d) = true := by
  rw [OpRow.selects, encodeB, BitVec.and_comm, BitVec.and_or_distrib_left, hp, hm, low_byte_unmasked d (by omega)]
  simp

theorem formatR {m : Mnemonic} (off : Half) (len : Byte) (hm : (opRow m).mask = BitVec.allOnes 32 <<< 24)
    (hp : (opRow m).mask &&& (opRow m).pattern = (opRow m).pattern) : (opRow m).selects (encodeR m off len) = true := by
  rw [OpRow.selects, encodeR, BitVec.and_comm, BitVec.and_or_distrib_left, BitVec.and_or_distrib_left, hp, hm,
    low_byte_unmasked len (by omega), offset_unmasked off]
  simp

theorem bclr : Statement .bclr := rfl

theorem bpush (d : Byte) : Statement (.bpush d) := formatB (m := .bpush) d (by decide) (by decide)

theorem cinit : Statement .cinit := rfl

theorem cbyte (d : Byte) : Statement (.cbyte d) := formatB (m := .cbyte) d (by decide) (by decide)

theorem crc (off : Half) (len : Byte) : Statement (.crc off len) :=
  formatR (m := .crc) off len (by decide) (by decide)

theorem enc (off : Half) (len : Byte) : Statement (.enc off len) :=
  formatR (m := .enc) off len (by decide) (by decide)

theorem frame (off : Half) (len : Byte) : Statement (.frame off len) :=
  formatR (m := .frame) off len (by decide) (by decide)

end Sys2Proof.Laws.RowMatch
end

