-- ==== Sys2Proof/Laws/Session.lean ====
section
/-! SUPPORT. What the host-level session's shared operations can answer. -/

namespace Sys2Proof.Machine

/-- The host goes on exactly where the block answered a state without a fault. -/
theorem watch_next {before after : TxSession} {r : Res} {y : TxSystem} (h : SystemRes.watch before after r = .next y) :
    r = .next y.block ∧ y.session = after ∧ y.block.fault = false := by
  cases r with
  | next b =>
    cases hb : b.fault <;> simp [SystemRes.watch, halted, hb] at h
    exact h ▸ ⟨rfl, rfl, hb⟩
  | fault f => cases h
  | refused f => cases h

/-- The run has failed exactly where the block answered a halted state, and the session stands where it stood. -/
theorem watch_failed {before after : TxSession} {r : Res} {y : TxSystem}
    (h : SystemRes.watch before after r = .failed y) : r = .next y.block ∧ y.session = before ∧ y.block.fault = true := by
  cases r with
  | next b =>
    cases hb : b.fault <;> simp [SystemRes.watch, halted, hb] at h
    exact h ▸ ⟨rfl, rfl, hb⟩
  | fault f => cases h
  | refused f => cases h

/-- A block that answers a running state lets the session go on. -/
theorem watch_running {before after : TxSession} {b : State} (h : b.fault = false) :
    SystemRes.watch before after (.next b) = .next { session := after, block := b } := by
  simp [SystemRes.watch, halted, h]

/-- A block that answers a halted state ends the run. -/
theorem watch_halted {before after : TxSession} {b : State} (h : b.fault = true) :
    SystemRes.watch before after (.next b) = .failed { session := before, block := b } := by
  simp [SystemRes.watch, halted, h]

/-- A sequence goes on only through a first part that goes on. -/
theorem andThen_next {o : SystemRes} {k : TxSystem → SystemRes} {z : TxSystem} (h : o.andThen k = .next z) :
    ∃ y, o = .next y ∧ k y = .next z := by
  cases o <;> first | exact ⟨_, rfl, h⟩ | cases h

/-- A sequence fails in its first part or in its second. -/
theorem andThen_failed {o : SystemRes} {k : TxSystem → SystemRes} {z : TxSystem} (h : o.andThen k = .failed z) :
    o = .failed z ∨ ∃ y, o = .next y ∧ k y = .failed z := by
  cases o with
  | next y => exact .inr ⟨y, rfl, h⟩
  | failed y => cases h; exact .inl rfl
  | fault f => cases h
  | refused r => cases h

end Sys2Proof.Machine
end

