-- ==== Sys2Proof/Machine/AsmText.lean ====
section
/-! DEFINITION. The characters of a line of program text (`30_encoding.md` R55): `MNEMONIC`, `MNEMONIC operand` or
`MNEMONIC operand, operand`, mnemonics in capitals, operands as decimal or `0x` numerals or a quoted character, and text after
`;` a comment. No rule of the block reads any of it; white space between the parts is a blank or a tab (log entry 8). -/

namespace Sys2Proof.Machine

/-- What a line is made of. -/
inductive AsmToken where
  | name (m : Mnemonic)
  | num (n : Nat)
  | comma
  deriving DecidableEq, Repr

/-- The mnemonics, in capitals (`30_encoding.md` R47). -/
def mnemonicOf (cs : List Char) : Option Mnemonic :=
  if cs = ['B', 'C', 'L', 'R'] then some .bclr
  else if cs = ['B', 'P', 'U', 'S', 'H'] then some .bpush
  else if cs = ['C', 'I', 'N', 'I', 'T'] then some .cinit
  else if cs = ['C', 'B', 'Y', 'T', 'E'] then some .cbyte
  else if cs = ['C', 'R', 'C'] then some .crc
  else if cs = ['E', 'N', 'C'] then some .enc
  else if cs = ['F', 'R', 'A', 'M', 'E'] then some .frame
  else none

/-- The value of one digit in a base of 10 or 16; hexadecimal letters in either case. -/
def digitValue (base : Nat) (ch : Char) : Option Nat :=
  let n := ch.toNat
  let v :=
    if 48 ≤ n ∧ n ≤ 57 then some (n - 48)
    else if 65 ≤ n ∧ n ≤ 70 then some (n - 55)
    else if 97 ≤ n ∧ n ≤ 102 then some (n - 87)
    else none
  match v with
  | some d => if d < base then some d else none
  | none => none

/-- An unsigned numeral's digits, most significant first, onto the value `acc` of those already read. -/
def digitsValue (base : Nat) : Nat → List Char → Option Nat
  | acc, [] => some acc
  | acc, ch :: rest =>
    match digitValue base ch with
    | some d => digitsValue base (acc * base + d) rest
    | none => none

/-- An unsigned numeral, decimal or `0x` hexadecimal. -/
def numeral : List Char → Option Nat
  | [] => none
  | '0' :: 'x' :: ch :: rest => digitsValue 16 0 (ch :: rest)
  | ch :: rest => digitsValue 10 0 (ch :: rest)

/-- The token of a run of characters, the run given last character first. -/
def tokenOf (run : List Char) : Option (List AsmToken) :=
  match run.reverse with
  | [] => some []
  | cs =>
    match mnemonicOf cs with
    | some m => some [.name m]
    | none =>
      match numeral cs with
      | some n => some [.num n]
      | none => none

/-- Put `before` and then `extra` in front of the tokens of the rest of a line. -/
def joinTokens (before : Option (List AsmToken)) (extra : List AsmToken) (rest : Option (List AsmToken)) :
    Option (List AsmToken) :=
  match before, rest with
  | some b, some r => some (b ++ extra ++ r)
  | _, _ => none

/-- The tokens of a line; `run` holds the characters of the part being read, last first. -/
def lexLine : List Char → List Char → Option (List AsmToken)
  | run, [] => tokenOf run
  | [], '\'' :: ch :: '\'' :: rest =>
    if ch.toNat < 128 then joinTokens (some []) [.num ch.toNat] (lexLine [] rest) else none
  | run, ';' :: _ => tokenOf run
  | run, ',' :: rest => joinTokens (tokenOf run) [.comma] (lexLine [] rest)
  | run, ' ' :: rest => joinTokens (tokenOf run) [] (lexLine [] rest)
  | run, '\t' :: rest => joinTokens (tokenOf run) [] (lexLine [] rest)
  | run, ch :: rest => lexLine (ch :: run) rest

/-- A line of program text as a mnemonic with its operands (`30_encoding.md` R55). -/
def readLine (text : List Char) : Option AsmLine :=
  match lexLine [] text with
  | some [.name m] => some { mnemonic := m, operands := [] }
  | some [.name m, .num a] => some { mnemonic := m, operands := [a] }
  | some [.name m, .num a, .comma, .num b] => some { mnemonic := m, operands := [a, b] }
  | _ => none

/-- The command word a line of program text stands for (`30_encoding.md` R55, R56). -/
def assembleText (text : List Char) : Option Word :=
  match readLine text with
  | some l =>
    match assemble l with
    | some i => some (encode i)
    | none => none
  | none => none

end Sys2Proof.Machine
end

