-- ==== Sys2Proof/Machine/Reception.lean ====
section
/-! DEFINITION. The Reception Session, HOST-LEVEL software that does not use the block at all (`44_host_sessions.md` R105 to
R108; out of the hardware by `00_scope.md` R4, log entry 12). Time is a number the environment supplies, in no stated unit. -/

namespace Sys2Proof.Machine

/-- Its whole state (`44_host_sessions.md` R108): the time of the previous byte, or of the session's start. -/
structure RxSession where
  lastTimestamp : Nat
  deriving DecidableEq, Repr

/-- What one received byte reports: its value and the two sides of the rate "8 bits ÷ elapsed time"
(`44_host_sessions.md` R106). -/
structure RxReport where
  value : Byte
  bits : Nat
  elapsed : Nat
  deriving DecidableEq, Repr

/-- The session's start: the trigger byte goes straight to the transport, unframed (`44_host_sessions.md` R105). -/
def RxSession.start (now : Nat) : RxSession × List Byte := ({ lastTimestamp := now }, [Config.trigger])

/-- The elapsed time from `last` to `now`, the free value where the clock reads earlier than `last` (`44_host_sessions.md` R106;
DESIGN CHOICE, log entry 16). -/
def elapsedTime (now last : Nat) : Nat := if last ≤ now then now - last else Config.backwardElapsed now last

/-- One iteration of its loop: a byte is reported and stamps the time; a timeout changes nothing (`44_host_sessions.md`
R106). It never exits on its own (R107). -/
def RxSession.step (now : Nat) (read : Option Byte) (t : RxSession) : RxSession × Option RxReport :=
  match read with
  | some b => ({ lastTimestamp := now }, some { value := b, bits := 8, elapsed := elapsedTime now t.lastTimestamp })
  | none => (t, none)

end Sys2Proof.Machine
end

