-- ==== Sys2Proof/Tests/Slice0.lean ====
section
/-! SUPPORT. The model's own tests: ill-formed terms each check refuses, words written out from `30_encoding.md`, one step per
command with results from `95_test_vectors.md`, and a witness for the hypotheses of every obligation. -/

namespace Sys2Proof.Machine.Tests

/-! ### Helpers -/

/-- The reset state with a payload loaded: `buf[i]` the `i`-th byte. -/
def loaded (bs : List Byte) : State :=
  { State.reset with buf := bs.zipIdx.map fun x => (x.2, x.1), blen := BitVec.ofNat 16 bs.length }

/-- "ABCDEFGH". -/
def stABCDEFGH : State := loaded [0x41#8, 0x42#8, 0x43#8, 0x44#8, 0x45#8, 0x46#8, 0x47#8, 0x48#8]

/-- One byte, `blen = 1` (`95_test_vectors.md` section 5). -/
def stA : State := loaded [0x41#8]

/-- A full buffer: `buf[i] = i`, `blen = 256` (`95_test_vectors.md` section 5). -/
def stFull : State := loaded ((List.range 256).map fun i => BitVec.ofNat 8 i)

/-- A halted state (`95_test_vectors.md` program P4). -/
def stHalted : State := withRecord 1#8 0x12000102#32 { stA with acc := 0x22#8 }

/-- A field of the next state, where there is one. -/
def nextField {α : Type} (f : State → α) : Res → Option α
  | .next s => some (f s)
  | .fault _ => none
  | .refused _ => none

/-! ### Well-formedness: an ill-formed term for each check -/

theorem test_wf_byte_operand_too_large : AsmLine.wf { mnemonic := .bpush, operands := [256] } = false := by decide
theorem test_wf_length_too_large : AsmLine.wf { mnemonic := .crc, operands := [0, 256] } = false := by decide
theorem test_wf_offset_too_large : AsmLine.wf { mnemonic := .enc, operands := [65536, 0] } = false := by decide
theorem test_wf_operand_count : AsmLine.wf { mnemonic := .bclr, operands := [0] } = false := by decide
theorem test_wf_largest_operands : AsmLine.wf { mnemonic := .frame, operands := [65535, 255] } = true := by decide
theorem test_wf_empty_buffer : Config.wf { Config.hw with bufCap := 0 } = false := by decide
theorem test_wf_buffer_too_large : Config.wf { Config.hw with bufCap := 65536 } = false := by decide
theorem test_wf_wide_word : Config.wf { Config.hw with cmdW := 64 } = false := by decide
theorem test_wf_crc_init : Config.wf { Config.hw with crcInit := 0xFF#8 } = false := by decide
theorem test_wf_final_xor : Config.wf { Config.hw with crcXorout := 0xFF#8 } = false := by decide
theorem test_wf_offset_width : Config.wf { Config.hw with offW := 8 } = false := by decide
theorem test_wf_length_width : Config.wf { Config.hw with lenW := 16 } = false := by decide
theorem test_wf_hw : Config.wf Config.hw = true := by decide

/-! ### Decoding: words written out from the field positions of `30_encoding.md` R43 and the opcodes of R47 -/

theorem test_decode_bclr : decode 0b00000001_000000000000000000000000#32 = .ok .bclr := rfl
theorem test_decode_bpush : decode 0b00000010_0000000000000000_10001101#32 = .ok (.bpush 0x8D#8) := rfl
theorem test_decode_cinit : decode 0b00010000_000000000000000000000000#32 = .ok .cinit := rfl
theorem test_decode_cbyte : decode 0b00010001_0000000000000000_01000001#32 = .ok (.cbyte 0x41#8) := rfl
theorem test_decode_crc : decode 0b00010010_0000000100000010_00000011#32 = .ok (.crc 0x0102#16 3#8) := rfl
theorem test_decode_enc : decode 0b00100000_1000000000000001_11111111#32 = .ok (.enc 0x8001#16 255#8) := rfl
theorem test_decode_frame : decode 0b00100001_0000000000001000_00000000#32 = .ok (.frame 8#16 0#8) := rfl
theorem test_decode_zero_word : decode 0x00000000#32 = .error (.unassignedOp 0x00#8) := rfl
theorem test_decode_must_be_zero : decode 0x11010041#32 = .error (.mustBeZero 0x11#8) := rfl
theorem test_decode_table_word : decodeTableWord 32 0x12000404 = some (.crc 4#16 4#8) := by decide

/-! ### Program text (`30_encoding.md` R47, R55) -/

theorem test_asm_frame : assembleText ['F', 'R', 'A', 'M', 'E', ' ', '4', ',', ' ', '1', ' ', ';', ' ', 'x'] =
    some 0x21000401#32 := by decide
theorem test_asm_quoted : assembleText ['B', 'P', 'U', 'S', 'H', ' ', '\'', 'A', '\''] = some 0x02000041#32 := by decide
theorem test_asm_hex : assembleText ['C', 'R', 'C', ' ', '0', 'x', '4', ',', '0', 'x', '0', '4'] = some 0x12000404#32 := by
  decide
theorem test_asm_out_of_range : assembleText ['C', 'B', 'Y', 'T', 'E', ' ', '2', '5', '6'] = none := by decide

/-! ### One step per command (`95_test_vectors.md`) -/

/-- R57's example: `blen = 8`, `acc = 0x81`. -/
theorem test_bclr : nextField (fun t => (t.blen, t.acc)) (exec .bclr { stABCDEFGH with acc := 0x81#8 }) =
    some (0#16, 0x81#8) := by decide +kernel
/-- Section 5: word 02000041 after reset. -/
theorem test_bpush : nextField (fun t => (t.blen, t.buf)) (step (State.reset.withFetchWord 32 0x02000041)) =
    some (1#16, [(0, 0x41#8)]) := by decide +kernel
/-- Section 5, full buffer: 020000AA. -/
theorem test_bpush_full : nextField (fun t => (t.fault, t.cause, t.finfo, t.blen)) (exec (.bpush 0xAA#8) stFull) =
    some (true, 3#8, 0x020000AA#32, 256#16) := by decide +kernel
/-- R67's example. -/
theorem test_cinit : nextField (·.acc) (exec .cinit { stA with acc := 0x58#8 }) = some 0x00#8 := by decide +kernel
/-- Program P3: `CBYTE 'B'` from 0C. -/
theorem test_cbyte : nextField (·.acc) (exec (.cbyte 0x42#8) { stA with acc := 0x0C#8 }) = some 0x22#8 := by decide +kernel
/-- R70's example: `CRC 4, 4`. -/
theorem test_crc : nextField (·.acc) (exec (.crc 4#16 4#8) stABCDEFGH) = some 0x81#8 := by decide +kernel
/-- Section 5: 12FFFF02, the sum not wrapped. -/
theorem test_crc_no_wrap : nextField (fun t => (t.cause, t.finfo)) (step (State.reset.withFetchWord 32 0x12FFFF02)) =
    some (1#8, 0x12FFFF02#32) := by decide +kernel
/-- R79's example with a stale `acc` (R80): `ENC 4, 4` after `CRC 0, 4`. -/
theorem test_enc_stale : nextField (·.tx) (exec (.enc 4#16 4#8) { stABCDEFGH with acc := 0x58#8 }) =
    some [0x8D#8, 0x04#8, 0x45#8, 0x46#8, 0x47#8, 0x48#8, 0x58#8, 0x8F#8] := by decide +kernel
/-- Section 5: 20000000 after reset. -/
theorem test_enc_empty : nextField (·.tx) (step (State.reset.withFetchWord 32 0x20000000)) =
    some [0x8D#8, 0x00#8, 0x00#8, 0x8F#8] := by decide +kernel
/-- R82's example: `FRAME 4, 4`. -/
theorem test_frame : nextField (fun t => (t.acc, t.tx)) (exec (.frame 4#16 4#8) stABCDEFGH) =
    some (0x81#8, [0x8D#8, 0x04#8, 0x45#8, 0x46#8, 0x47#8, 0x48#8, 0x81#8, 0x8F#8]) := by decide +kernel
/-- Program P1: `FRAME 8, 0`, the extra empty frame. -/
theorem test_frame_at_end : nextField (fun t => (t.acc, t.tx)) (exec (.frame 8#16 0#8) stABCDEFGH) =
    some (0x00#8, [0x8D#8, 0x00#8, 0x00#8, 0x8F#8]) := by decide +kernel
/-- Program P4: a halted block ignores `BCLR`. -/
theorem test_halted : nextField (fun t => (t.blen, t.finfo)) (exec .bclr stHalted) = some (1#16, 0x12000102#32) := by decide
/-- Section 6, byte-level run of `FRAME 4, 1`: step 3 emits `buf[4]` and goes to `CRCB` with `idx = 1`. -/
theorem test_sequencer_payload : nextField (fun t => (t.tx, t.phase, t.idx))
    (step { stABCDEFGH with phase := .payload, sOff := 4#16, sLen := 1#8 }) = some ([0x45#8], .crcb, 1#8) := by decide +kernel
/-- Section 2.5: the 16-byte pattern of two bits 127 apart is not detected, so the bound of R74 (ii) is sharp. -/
theorem test_two_bits_127_apart :
    crcSeq 0x31#8 0x00#8 (flipBit (flipBit (List.replicate 16 0x00#8) 0) 127) = 0x00#8 := by decide +kernel
/-- R74 (iv): `[00, 00, 01, 31]` has CRC 00. -/
theorem test_undetected_four_bits : crcSeq 0x31#8 0x00#8 [0x00#8, 0x00#8, 0x01#8, 0x31#8] = 0x00#8 := by decide +kernel
/-- R61: the generator with its top bit is 0x131. -/
theorem test_generator : generator 0x31#8 = 0x131#9 := by decide +kernel
/-- `44_host_sessions.md` R105, R106: the trigger byte, a reported byte, a timeout. -/
theorem test_reception : RxSession.start 5 = ({ lastTimestamp := 5 }, [0xFF#8]) ∧
    RxSession.step 9 (some 0x41#8) { lastTimestamp := 5 } =
      ({ lastTimestamp := 9 }, some { value := 0x41#8, bits := 8, elapsed := 4 }) ∧
    RxSession.step 9 none { lastTimestamp := 5 } = ({ lastTimestamp := 5 }, none) := by decide +kernel

/-- R106 on a clock that went back: the byte is reported and stamps the time, whatever the elapsed time. -/
theorem test_reception_clock_back : (RxSession.step 3 (some 0x41#8) { lastTimestamp := 5 }).1 = { lastTimestamp := 3 } ∧
    (RxSession.step 3 (some 0x41#8) { lastTimestamp := 5 }).2.map (·.value) = some 0x41#8 := ⟨rfl, rfl⟩

/-! ### Witnesses: concrete states and operands that meet the hypotheses of the obligations -/

theorem ready_stA : Ready stA := ⟨rfl, rfl⟩
theorem ready_stFull : Ready stFull := ⟨rfl, rfl⟩
theorem ready_stABCDEFGH : Ready stABCDEFGH := ⟨rfl, rfl⟩

theorem inv_stA : Inv stA := by constructor <;> decide +kernel
theorem inv_stABCDEFGH : Inv stABCDEFGH := by constructor <;> decide +kernel
theorem inv_stFull : Inv stFull := by constructor <;> decide +kernel
theorem inv_stHalted : Inv stHalted := by constructor <;> decide +kernel

/-- EncodeDecodeRoundTrip, and the words of SpecWordsDecode. -/
theorem witness_decodes : decode 0x12FFFF02#32 = .ok (.crc 0xFFFF#16 2#8) := rfl

/-- IllegalWordsRaiseIllegalCommand: a word for each clause. -/
theorem witness_illegal_words : Ready stA ∧ (∃ e, decode 0x00000000#32 = .error e) ∧
    wordOp 0x13000000#32 ∉ [0x01#8, 0x02#8, 0x10#8, 0x11#8, 0x12#8, 0x20#8, 0x21#8] ∧
    (wordOp 0x01000001#32 ∈ [0x01#8, 0x10#8] ∧ (0x01000001#32).extractLsb' 0 24 ≠ 0#24) ∧
    (wordOp 0x02000141#32 ∈ [0x02#8, 0x11#8] ∧ (0x02000141#32).extractLsb' 8 16 ≠ 0#16) ∧
    wordOp 0x21FFFFFF#32 ∈ [0x12#8, 0x20#8, 0x21#8] :=
  ⟨ready_stA, ⟨_, rfl⟩, by decide +kernel, by decide +kernel, by decide +kernel, by decide +kernel⟩

/-- StepRunsDecodedCommand, StepWaitsForTheHost. -/
theorem witness_presented_word : (stA.withFetchWord 32 0x01000000).phase = .idle ∧
    (stA.withFetchWord 32 0x01000000).host = { rst := false, cmd := some 0x01000000#32 } :: [] ∧
    decode 0x01000000#32 = .ok .bclr ∧ stA.phase = .idle ∧ stA.host = [] ∧
    ({ stA with host := [{ rst := false, cmd := none }] } : State).host = { rst := false, cmd := none } :: [] :=
  ⟨rfl, rfl, rfl, rfl, rfl, rfl⟩

/-- IllegalCommandEntry. -/
theorem witness_presented_illegal : Ready (stA.withFetchWord 32 0xFFFFFFFF) ∧
    (stA.withFetchWord 32 0xFFFFFFFF).host = { rst := false, cmd := some 0xFFFFFFFF#32 } :: [] ∧
    (∀ r ∈ opcodeMap, 0xFFFFFFFF#32 &&& r.mask ≠ r.pattern) := ⟨⟨rfl, rfl⟩, rfl, by decide +kernel⟩

/-- HaltedIgnoresEveryWord, OnlyResetClearsFault. -/
theorem witness_halted : stHalted.phase = .idle ∧ stHalted.fault = true ∧ step stHalted = .next stHalted ∧
    (stHalted.withFetchWord 32 0x01000000).host = { rst := false, cmd := some 0x01000000#32 } :: [] := ⟨rfl, rfl, rfl, rfl⟩

/-- ResetStepState, TwoResetsEqualOne: a halted block, reset with and without a word. -/
theorem witness_reset_presented :
    let s : State := { stHalted with host := [{ rst := true, cmd := some 0x01000000#32 }, { rst := true, cmd := none }] }
    s.phase = .idle ∧ s.host = { rst := true, cmd := some 0x01000000#32 } :: { rst := true, cmd := none } :: [] := by decide

/-- SubRangeCheck: at the end of the buffer and one past it. -/
theorem witness_sub_range : validRange stA 0#16 1#8 = true ∧ validRange stA 1#16 0#8 = true ∧
    (2#16).toNat = stA.blen.toNat + 1 ∧ validRange stA 2#16 0#8 = false := by decide +kernel

/-- A valid sub-range at its boundary, `off + len = blen`: CrcResult, EncResult, FrameResult, FrameIsCrcThenEnc,
RetryInvariance, StreamingEqualsRange, SequencerAgreesWithFrame. -/
theorem witness_valid_range : Ready stFull ∧ Fits stFull ∧ (1#16).toNat + (255#8).toNat ≤ stFull.blen.toNat ∧
    (256#16).toNat ≤ stFull.blen.toNat ∧ stFull.phase = .idle :=
  ⟨ready_stFull, by decide +kernel, by decide +kernel, by decide +kernel, rfl⟩

/-- An invalid sub-range at its boundary: InvalidRangeEntry and the invalid clauses of the results. -/
theorem witness_invalid_range : Ready stFull ∧ stFull.blen.toNat < (2#16).toNat + (255#8).toNat ∧
    stFull.blen.toNat < (257#16).toNat + (0#8).toNat := ⟨ready_stFull, by decide +kernel, by decide +kernel⟩

/-- CrcResult's zero bytes. -/
theorem witness_zero_bytes : Ready (loaded [0x00#8]) ∧ Fits (loaded [0x00#8]) ∧
    (0#16).toNat + (1#8).toNat ≤ (loaded [0x00#8]).blen.toNat ∧
    (∀ i, i < (1#8).toNat → bufByte (loaded [0x00#8]) ((0#16).toNat + i) = 0x00#8) :=
  ⟨⟨rfl, rfl⟩, by decide +kernel, by decide +kernel, by decide +kernel⟩

/-- BpushResult: the last free byte and the full buffer; CinitResult and CbyteResult: `acc` zero. -/
theorem witness_push_boundaries :
    let s : State := { stFull with blen := 255#16 }
    Ready s ∧ s.blen.toNat < 256 ∧ Ready stFull ∧ stFull.blen.toNat = 256 ∧ stFull.acc = 0x00#8 :=
  ⟨⟨rfl, rfl⟩, by decide +kernel, ready_stFull, by decide +kernel, rfl⟩

/-- BclrResult: an illegal neighbour of its word. -/
theorem witness_bclr_neighbour : Ready stA ∧ wordOp 0x0100FF00#32 = 0x01#8 ∧ (0x0100FF00#32).extractLsb' 0 24 ≠ 0#24 :=
  ⟨ready_stA, by decide +kernel, by decide +kernel⟩

set_option maxRecDepth 20000 in
/-- ExactlyThreeFaults, FaultEntryIsPrecise: a word for each code. -/
theorem witness_three_faults : Inv stFull ∧ stFull.fault = false ∧
    runWord 0x120002FF#32 stFull = .next (withRecord 1#8 0x120002FF#32 stFull) ∧
    runWord 0x00000000#32 stFull = .next (withRecord 2#8 0x00000000#32 stFull) ∧
    runWord 0x020000AA#32 stFull = .next (withRecord 3#8 0x020000AA#32 stFull) :=
  ⟨inv_stFull, rfl, rfl, rfl, rfl⟩

/-- OrderOfTests: a state and word for each clause. -/
theorem witness_order_of_tests : stHalted.phase = .idle ∧ Fits stHalted ∧ stHalted.fault = true ∧
    (stFull.phase = .idle ∧ Fits stFull ∧ stFull.fault = false) ∧
    (∀ r ∈ opcodeMap, 0x01000001#32 &&& r.mask ≠ r.pattern) ∧
    (wordOp 0x210002FF#32 ∈ [0x12#8, 0x20#8, 0x21#8] ∧
      stFull.blen.toNat < (wordOff 0x210002FF#32).toNat + (wordLow 0x210002FF#32).toNat) ∧
    0x020000AA#32 &&& 0xFFFFFF00#32 = 0x02000000#32 ∧ stFull.blen.toNat = 256 ∧
    ((∃ r ∈ opcodeMap, 0x210001FF#32 &&& r.mask = r.pattern) ∧
      ¬ (wordOp 0x210001FF#32 ∈ [0x12#8, 0x20#8, 0x21#8] ∧
        stFull.blen.toNat < (wordOff 0x210001FF#32).toNat + (wordLow 0x210001FF#32).toNat) ∧
      ¬ (0x210001FF#32 &&& 0xFFFFFF00#32 = 0x02000000#32 ∧ stFull.blen.toNat = 256)) := by
  refine ⟨rfl, by decide +kernel, rfl, ⟨rfl, by decide +kernel, rfl⟩, ?_⟩
  decide +kernel

set_option maxRecDepth 20000 in
/-- RegisterCommandsFrame, BpushFrame, EmittingCommandsFrame, ByteLevelRefinesAtomic: every command answers a next state. -/
theorem witness_frames :
    (∃ t, exec .bclr stA = .next t) ∧ (∃ t, exec .cinit stA = .next t) ∧ (∃ t, exec (.cbyte 1#8) stA = .next t) ∧
    (∃ t, exec (.crc 0#16 1#8) stA = .next t ∧ validRange stA 0#16 1#8 = true) ∧
    (∃ t, exec (.crc 1#16 1#8) stA = .next t ∧ validRange stA 1#16 1#8 = false) ∧
    (∃ t, exec (.bpush 2#8) stA = .next t ∧ stA.blen.toNat ≠ 256) ∧
    (∃ t, exec (.bpush 2#8) stFull = .next t ∧ stFull.blen.toNat = 256) ∧
    (∃ t, exec (.enc 0#16 1#8) stA = .next t ∧ t.fault = false ∧ validRange stA 0#16 1#8 = true) ∧
    (∃ t, exec (.frame 0#16 1#8) stA = .next t ∧ t.fault = false) ∧
    (∃ t, exec (.frame 1#16 1#8) stA = .next t ∧ t.fault = true ∧ validRange stA 1#16 1#8 = false) :=
  ⟨⟨_, rfl⟩, ⟨_, rfl⟩, ⟨_, rfl⟩, ⟨_, rfl, by decide⟩, ⟨_, rfl, by decide⟩, ⟨_, rfl, by decide⟩, ⟨_, rfl, by decide⟩,
    ⟨_, rfl, rfl, by decide +kernel⟩, ⟨_, rfl, rfl⟩, ⟨_, rfl, rfl, by decide +kernel⟩⟩

/-- PushedSequence: a payload of one byte, an empty buffer, and a step of a block that fits. -/
theorem witness_push_sequence : Ready State.reset ∧ State.reset.blen = 0#16 ∧ [0x41#8].length ≤ 256 ∧
    Fits (stA.withFetchWord 32 0x02000042) ∧ (∃ t, step (stA.withFetchWord 32 0x02000042) = .next t) :=
  ⟨⟨rfl, rfl⟩, rfl, by decide +kernel, by decide +kernel, ⟨_, rfl⟩⟩

/-- PushedSequence and RetryInvariance with another command in between: `CBYTE 1`. -/
theorem witness_between : Ready stA ∧ Fits stA ∧ decode 0x11000001#32 ≠ .ok .bclr ∧ LeavesBuffer 0x11000001#32 ∧
    (∃ t, runWords [0x02000042#32, 0x11000001#32] stA = .next t ∧ t.fault = false) ∧
    pushedBytes [0x02000042#32, 0x11000001#32] = [0x42#8] ∧ (0#16).toNat + (1#8).toNat ≤ stA.blen.toNat ∧
    (∃ u v, exec (.frame 0#16 1#8) stA = .next u ∧ runWords [0x11000001#32] u = .next v ∧ v.fault = false) := by
  refine ⟨ready_stA, by decide +kernel, fun h => ?_, ⟨fun h => ?_, fun d h => ?_⟩, ⟨_, rfl, rfl⟩, rfl, by decide,
    ⟨_, _, rfl, rfl, rfl⟩⟩ <;> exact Instr.noConfusion (Except.ok.inj h)

/-- StreamingEqualsRange: `BPUSH 'B'` between `CINIT` and `CBYTE 'A'`, and a state whose sub-range holds the byte. -/
theorem witness_streaming : Ready stA ∧ StreamsOn 0x02000042#32 ∧ StreamsOn 0x11000041#32 ∧
    (∃ t, runWords [encode .cinit, 0x02000042#32, 0x11000041#32] stA = .next t ∧ t.fault = false ∧ t.acc = 0x0C#8) ∧
    absorbedBytes [0x02000042#32, 0x11000041#32] = [0x41#8] ∧ Fits stA ∧ (0#16).toNat + (1#8).toNat ≤ stA.blen.toNat ∧
    slice stA 0 1 = [0x41#8] := by
  refine ⟨ready_stA, ⟨fun h => ?_, fun _ _ h => ?_, fun _ _ h => ?_⟩, ⟨fun h => ?_, fun _ _ h => ?_, fun _ _ h => ?_⟩,
    ⟨_, rfl, rfl, rfl⟩, rfl, by decide +kernel, by decide, rfl⟩ <;> exact Instr.noConfusion (Except.ok.inj h)

/-- PushedSequence's last clause: a `BCLR` word, `rst` and a `BPUSH` word presented. -/
theorem witness_blen_changes :
    (∃ t, step (stA.withFetchWord 32 0x01000000) = .next t ∧ t.blen = 0#16) ∧
    (∃ t, step { stA with host := [{ rst := true, cmd := none }] } = .next t ∧ t.blen = 0#16) ∧
    (∃ t, step (stA.withFetchWord 32 0x02000042) = .next t ∧ t.blen = 2#16) :=
  ⟨⟨_, rfl, rfl⟩, ⟨_, rfl, rfl⟩, ⟨_, rfl, rfl⟩⟩

/-- CrcDependsOnBytesOnly: the same byte at two offsets. -/
theorem witness_same_bytes : Ready (loaded [0x41#8, 0x41#8]) ∧ Fits (loaded [0x41#8, 0x41#8]) ∧ Ready stA ∧ Fits stA ∧
    (1#16).toNat + (1#8).toNat ≤ (loaded [0x41#8, 0x41#8]).blen.toNat ∧ (0#16).toNat + (1#8).toNat ≤ stA.blen.toNat ∧
    (∀ i, i < (1#8).toNat → bufByte (loaded [0x41#8, 0x41#8]) ((1#16).toNat + i) = bufByte stA ((0#16).toNat + i)) :=
  ⟨⟨rfl, rfl⟩, by decide +kernel, ready_stA, by decide +kernel, by decide +kernel, by decide +kernel, by decide +kernel⟩

/-- CrcLaws, SingleBitFlipChangesCrc, TwoBitErrorChangesCrc, OddErrorChangesCrc, BurstErrorChangesCrc: the polynomial 0x31
and errors in "AB", at the ends of their ranges. -/
theorem witness_error_patterns : (0x31#8).getLsbD 0 = true ∧ [0x41#8, 0x42#8].length = [0x00#8, 0x03#8].length ∧
    15 < 8 * [0x41#8, 0x42#8].length ∧ (0 < 15 ∧ 15 - 0 < 127) ∧ seqWeight [0x00#8, 0x07#8] % 2 = 1 ∧
    (0xFF#8 ≠ 0x00#8 ∧ 8 + 8 ≤ 8 * [0x41#8, 0x42#8].length) := by decide +kernel

/-- FrameFunction, FrameShape: payloads of 0, 255 and 256 bytes. -/
theorem witness_frame_lengths : (List.replicate 255 0x00#8).length ≤ 255 ∧ 255 < (List.replicate 256 0x00#8).length ∧
    frame Config.hw [] 0x37#8 = some [0x8D#8, 0x00#8, 0x37#8, 0x8F#8] := by decide +kernel

/-- A frame in progress: SequencerStepTable's phases, BusyBlockAcceptsNoCommand, SequencerEnds. -/
def stBusy (p : Phase) (i len : Byte) : State := { stABCDEFGH with phase := p, idx := i, sOff := 4#16, sLen := len }

theorem witness_sequencer : SeqInv (stBusy .payload 2#8 4#8) ∧ (2#8).toNat + 1 < (4#8).toNat ∧
    SeqInv (stBusy .payload 3#8 4#8) ∧ (3#8).toNat + 1 = (4#8).toNat ∧ (stBusy .payload 3#8 4#8).phase ≠ .idle ∧
    SeqInv (stBusy .start 0#8 4#8) ∧ 0 < (stBusy .len 0#8 4#8).sLen.toNat ∧ (stBusy .len 0#8 0#8).sLen.toNat = 0 ∧
    (∃ t, step (stBusy .payload 3#8 4#8) = .next t) := by
  refine ⟨by constructor <;> decide, by decide, by constructor <;> decide, by decide, by decide, by constructor <;> decide,
    by decide, by decide, ⟨_, rfl⟩⟩

/-- StepKeepsInv, StepAlwaysAnswers, TxOnlyGrows, StepKeepsWholeFrames. -/
theorem witness_inv_step : Inv (stA.withFetchWord 32 0x21000001) ∧ WholeFrames (stA.withFetchWord 32 0x21000001).tx ∧
    (stA.withFetchWord 32 0x21000001).phase = .idle ∧ (∃ t, step (stA.withFetchWord 32 0x21000001) = .next t) := by
  refine ⟨?_, .nil, rfl, ⟨_, rfl⟩⟩
  constructor <;> decide +kernel

/-- UnreadableStateIsInvisible: two states that differ above `blen` and in the latches. -/
theorem witness_same_readable :
    let t : State := { stA with buf := [(0, 0x41#8), (7, 0x99#8)], sOff := 3#16, sLen := 9#8 }
    stA.phase = .idle ∧ SameReadable stA t ∧ stA ≠ t := by
  refine ⟨rfl, ⟨rfl, rfl, rfl, rfl, by decide +kernel⟩, by decide +kernel⟩

/-- SessionSendsEveryChunk, SessionRetriesIdenticalFrame. -/
theorem witness_session :
    let y : TxSystem := { session := TxSession.start [0x41#8], block := stA }
    Ready State.reset ∧ [0x41#8].length ≤ 256 ∧ 1 ≤ [0x41#8].length / 4 + 1 ∧
    y.session.phase = .sending ∧ Ready y.block ∧ Fits y.block ∧ y.block.blen.toNat = y.session.payload.length ∧
    slice y.block 0 y.session.payload.length = y.session.payload ∧ y.session.cursor ≤ y.session.payload.length ∧
    (∀ r ∈ [none, some 0x8F#8], r ≠ some 0x90#8) :=
  ⟨⟨rfl, rfl⟩, by decide, by decide, rfl, ready_stA, by decide, by decide, by decide +kernel, by decide,
    by decide +kernel⟩

/-- SessionFailsOnFault: a payload one byte too long, a run that goes on, one attempt on a halted block, and a halted block
to continue from. -/
theorem witness_session_faults : Ready stA ∧ 256 < (List.replicate 257 0x41#8).length ∧ stHalted.phase = .idle ∧
    [0x41#8].length ≤ 256 ∧ 1 ≤ [0x41#8].length / 4 + 1 ∧
    (∃ y, runSession [0x41#8] [some 0x90#8] stA = .next y) ∧
    (∃ y, runSession [0x41#8] [] stHalted = .failed y) ∧
    (∃ y, recoverSession [0x41#8] [some 0x90#8] stHalted = .next y ∧
      y.block.tx = [0x8D#8, 0x01#8, 0x41#8, 0x0C#8, 0x8F#8]) :=
  ⟨ready_stA, by decide +kernel, rfl, by decide, by decide, ⟨_, rfl⟩, ⟨_, rfl⟩, ⟨_, rfl, rfl⟩⟩

/-- `44_host_sessions.md` R112: a session whose block halts before a chunk is sent fails and does not advance. -/
theorem test_session_stops_at_fault :
    TxSystem.attempt (some 0x90#8) { session := TxSession.start [0x41#8], block := stHalted } =
      .failed { session := TxSession.start [0x41#8], block := stHalted } := by decide +kernel

/-- AssembleExactlyWellFormedLines has no hypothesis; a line on each side of it. -/
theorem witness_lines : assemble { mnemonic := .crc, operands := [65535, 255] } = some (.crc 0xFFFF#16 255#8) ∧
    assemble { mnemonic := .crc, operands := [65536, 255] } = none := by decide +kernel

end Sys2Proof.Machine.Tests
end

section
/-! PROOFS. The step at a command boundary (`00_scope.md` R7, R8): which presentation it takes, what a decoded word runs, and
that it always answers while `blen` fits the buffer. -/

namespace Sys2Proof.Machine

/-! ### Which presentation a step takes -/

/-- With nothing in the host's list a block at a command boundary waits. -/
theorem step_of_host_nil {s : State} (hi : s.phase = .idle) (hh : s.host = []) : step s = .next s := by
  rcases step_idle hi with ⟨-, hs⟩ | ⟨p, rest, hh', -⟩
  · exact hs
  · simp [hh] at hh'

/-- A block at a command boundary answers the first presentation of the host's list. -/
theorem step_of_host_cons {s : State} {p : PortInput} {rest : List PortInput} (hi : s.phase = .idle)
    (hh : s.host = p :: rest) : step s = present p { s with host := rest } := by
  rcases step_idle hi with ⟨hh', -⟩ | ⟨p', rest', hh', hs⟩
  · simp [hh] at hh'
  · obtain ⟨rfl, rfl⟩ : p = p' ∧ rest = rest' := by simpa [hh] using hh'
    exact hs

/-! ### A decoded word runs its command -/

/-- Every command is ignored by a halted block (`60_exceptions.md` R122). -/
theorem exec_halted (i : Instr) {s : State} (hi : s.phase = .idle) (hf : s.fault = true) : exec i s = .next s := by
  cases i <;> exact command_halted hi hf _

/-- A word that decodes to `i` runs as `i`, halted or not: both ignore it in a halted block. -/
theorem runWord_of_decode {w : Word} {i : Instr} {s : State} (hi : s.phase = .idle) (hd : decode w = .ok i) :
    runWord w s = exec i s := by
  rcases runWord_cases (w := w) hi with ⟨hf, hrun⟩ | ⟨-, ⟨e, he⟩, -⟩ | ⟨-, j, hj, hrun⟩
  · rw [hrun, exec_halted i hi hf]
  · simp [hd] at he
  · obtain rfl : i = j := by simpa [hd] using hj
    exact hrun

/-! ### Every presentation is answered

At a command boundary the only stop left is `noSuchAddress`, and `blen ≤ BUF_CAP` (`10_state.md` R26 (a)) excludes it: a valid
range ends within the buffer, and a push either finds a free byte or raises `BufferFull`. -/

/-- A block at a command boundary answers if the command's body does. -/
theorem command_answers {s : State} {body : Res} (hi : s.phase = .idle) (hbody : ∃ t, body = .next t) :
    ∃ t, command s body = .next t := by
  rcases command_cases s body with ⟨hb, -⟩ | ⟨-, -, hc⟩ | ⟨-, hc⟩
  · exact absurd hi hb
  · exact ⟨s, hc⟩
  · simpa only [hc] using hbody

/-- The range check answers if what follows it does. -/
theorem withRange_answers {c : Config} {w : Word} {off : Half} {len : Byte} {s : State} {f : List Byte → State}
    (hfit : s.blen.toNat ≤ c.bufCap) : ∃ t, withRange c w off len s (fun p => .next (f p)) = .next t := by
  rcases Nat.lt_or_ge s.blen.toNat (off.toNat + len.toNat) with hout | hin
  · exact ⟨_, withRange_invalid hout⟩
  · exact ⟨_, withRange_valid hfit hin⟩

/-- A push answers: the byte is stored, or `BufferFull` is recorded. -/
theorem pushByte_answers {c : Config} {w : Word} {d : Byte} {s : State} (hfit : s.blen.toNat ≤ c.bufCap) :
    ∃ t, pushByte c w d s = .next t := by
  rcases pushByte_cases c w d s with ⟨-, hp⟩ | ⟨-, hp⟩ | ⟨hover, -⟩
  · exact ⟨_, hp⟩
  · exact ⟨_, hp⟩
  · exact absurd hfit (Nat.not_le.mpr hover)

/-- Every command answers at a command boundary. -/
theorem exec_answers (i : Instr) {s : State} (hi : s.phase = .idle) (hfit : Fits s) : ∃ t, exec i s = .next t := by
  cases i with
  | bclr | cinit | cbyte => exact command_answers hi ⟨_, rfl⟩
  | bpush => exact command_answers hi (pushByte_answers hfit)
  | crc | enc | frame => exact command_answers hi (withRange_answers hfit)

/-- Every word answers at a command boundary, one that is no command as well. -/
theorem runWord_answers (w : Word) {s : State} (hi : s.phase = .idle) (hfit : Fits s) : ∃ t, runWord w s = .next t := by
  rcases runWord_cases (w := w) hi with ⟨-, hrun⟩ | ⟨-, -, hrun⟩ | ⟨-, i, -, hrun⟩
  · exact ⟨_, hrun⟩
  · exact ⟨_, hrun⟩
  · exact hrun ▸ exec_answers i hi hfit

/-- Every presentation of the ports answers at a command boundary. -/
theorem present_answers (p : PortInput) {s : State} (hi : s.phase = .idle) (hfit : Fits s) :
    ∃ t, present p s = .next t := by
  cases hr : p.rst with
  | true => exact ⟨_, present_rst hi hr⟩
  | false =>
    cases hc : p.cmd with
    | none => exact ⟨_, present_none hi hr hc⟩
    | some w => exact present_word hi hr hc ▸ runWord_answers w hi hfit

/-- A step at a command boundary answers; of the invariant it needs `blen ≤ BUF_CAP` alone. -/
theorem step_idle_answers {s : State} (hi : s.phase = .idle) (hfit : Fits s) : ∃ t, step s = .next t := by
  rcases step_idle hi with ⟨-, hs⟩ | ⟨p, rest, -, hs⟩
  · exact ⟨s, hs⟩
  · exact hs ▸ present_answers p hi hfit

/-! ### The obligations -/

/-- Settles O53: a state that meets the invariant is at a command boundary with `blen` within the buffer. -/
theorem stepAlwaysAnswers : Obligations.StepAlwaysAnswers := fun _ hinv => step_idle_answers hinv.idle hinv.blen_le

/-- Settles O7: the presented word runs as the command it decodes to. -/
theorem stepRunsDecodedCommand : Obligations.StepRunsDecodedCommand := by
  intro s w i rest hi hh hd
  calc step s = present { rst := false, cmd := some w } { s with host := rest } := step_of_host_cons hi hh
    _ = runWord w { s with host := rest } := present_word hi rfl rfl
    _ = exec i { s with host := rest } := runWord_of_decode hi hd

/-- Settles O8: an empty list is waited on, an empty presentation is taken off it. -/
theorem stepWaitsForTheHost : Obligations.StepWaitsForTheHost := by
  intro s hi
  exact ⟨step_of_host_nil hi, fun rest hh => (step_of_host_cons hi hh).trans (present_none hi rfl rfl)⟩

end Sys2Proof.Machine
end

section
/-! PROOFS. What every step keeps (`10_state.md` R14, R26): the invariant of a command boundary, `tx` as whole frames that only
a reset takes back, and that no step depends on what no rule can read. -/

namespace Sys2Proof.Machine

/-! ### What a step at a command boundary leaves -/

/-- A step at a command boundary, up to the presentation it takes off the host's list: nothing, a reset that was presented,
`IllegalCommand`, or the effect of a command. `step_idle_next` with the effect of the command in place of its run. -/
theorem step_idle_effect {s t : State} (hi : s.phase = .idle) (h : step s = .next t) :
    ∃ u, (∃ l, u = { s with host := l }) ∧
      (t = u ∨
       (t = resetBlock u ∧ ∃ p rest, s.host = p :: rest ∧ p.rst = true) ∨
       (∃ w, t = raise .illegalCommand w u) ∨
       ∃ i, Effect u t i) := by
  rcases step_idle_next hi h with rfl | ⟨p, rest, u, hh, hu, hcase⟩
  · exact ⟨t, ⟨t.host, rfl⟩, .inl rfl⟩
  · refine ⟨u, ⟨rest, hu⟩, ?_⟩
    rcases hcase with ⟨hr, ht⟩ | ⟨-, -, ht⟩ | ⟨-, w, -, ⟨-, ht⟩ | ⟨-, -, ht⟩ | ⟨-, i, -, he⟩⟩
    · exact .inr (.inl ⟨ht, p, rest, hh, hr⟩)
    · exact .inl ht
    · exact .inl ht
    · exact .inr (.inr (.inl ⟨w, ht⟩))
    · rcases exec_next he with ⟨-, ⟨-, ht⟩ | ⟨-, heff⟩⟩
      · exact .inl ht
      · exact .inr (.inr (.inr ⟨i, heff⟩))

/-! ### The invariant -/

/-- A reset block meets the invariant whatever it met before; of `buf`, which reset leaves, it needs the canonical form. -/
theorem inv_resetBlock {s : State} (hbuf : Memory.wf Config.hw.bufCap s.buf = true) : Inv (resetBlock s) where
  blen_le := Nat.zero_le _
  fault_iff := iff_of_true rfl rfl
  finfo_clear _ := rfl
  cause_le := Nat.zero_le _
  idle := rfl
  idx_zero := rfl
  buf_wf := hbuf
  written _ ha := absurd ha (Nat.not_lt_zero _)

/-- Fault entry keeps the invariant: the three codes are 1 to 3, none of them 0. -/
theorem Inv.raise {s : State} (h : Inv s) (f : FaultCause) (w : Word) : Inv (raise f w s) :=
  { h with
    fault_iff := by cases f <;> simp [faultCode]
    finfo_clear := by simp
    cause_le := by cases f <;> simp [faultCode] }

/-- `blen` does not wrap where a byte still fits. -/
theorem blen_succ_toNat {s : State} (hroom : s.blen.toNat < Config.hw.bufCap) :
    (s.blen + 1#16).toNat = s.blen.toNat + 1 := by
  have hcap : s.blen.toNat < 256 := hroom
  simp only [BitVec.toNat_add, BitVec.toNat_ofNat]
  omega

/-- A push keeps the invariant: the one address that comes below `blen` is the one just written. -/
theorem Inv.push {s : State} (h : Inv s) (hroom : s.blen.toNat < Config.hw.bufCap) (d : Byte) :
    Inv { s with buf := Memory.insert s.blen.toNat d s.buf, blen := s.blen + 1#16 } :=
  { h with
    blen_le := (blen_succ_toNat hroom).trans_le hroom
    buf_wf := wf_insert hroom h.buf_wf
    written := fun a ha => by
      rw [blen_succ_toNat hroom] at ha
      rcases Nat.lt_succ_iff_lt_or_eq.mp ha with hlt | rfl
      · rw [lookup_insert_other d s.buf (Nat.ne_of_lt hlt)]
        exact h.written a hlt
      · rw [lookup_insert_same]
        rfl }

/-- Every command's effect keeps the invariant. -/
theorem Inv.effect {s t : State} (h : Inv s) {i : Instr} (he : Effect s t i) : Inv t := by
  cases i with
  | bclr =>
    obtain rfl := he
    exact { h with blen_le := Nat.zero_le _, written := fun _ ha => absurd ha (Nat.not_lt_zero _) }
  | bpush d =>
    rcases he with ⟨-, rfl⟩ | ⟨hroom, rfl⟩
    · exact h.raise _ _
    · exact h.push hroom d
  | cinit | cbyte =>
    obtain rfl := he
    exact { h with }
  | crc =>
    rcases he with ⟨-, rfl⟩ | ⟨-, rfl⟩
    · exact h.raise _ _
    · exact { h with }
  | enc | frame =>
    rcases he with ⟨-, rfl⟩ | ⟨-, rfl⟩
    · exact h.raise _ _
    · exact { h with idx_zero := rfl }

/-- Settles O52, by the cases of what a step at a command boundary leaves. -/
theorem stepKeepsInv : Obligations.StepKeepsInv := by
  intro s t hinv hstep
  obtain ⟨u, ⟨l, hu⟩, hcase⟩ := step_idle_effect hinv.idle hstep
  have hinv' : Inv u := hu ▸ { hinv with }
  rcases hcase with rfl | ⟨rfl, -⟩ | ⟨w, rfl⟩ | ⟨i, heff⟩
  · exact hinv'
  · exact inv_resetBlock hinv'.buf_wf
  · exact hinv'.raise _ _
  · exact hinv'.effect heff

/-! ### The output stream -/

/-- `t.tx` is `s.tx`, or `s.tx` followed by one whole frame. -/
def AppendsAtMostAFrame (s t : State) : Prop :=
  t.tx = s.tx ∨ ∃ p crc f, frame Config.hw p crc = some f ∧ t.tx = s.tx ++ f

/-- The bytes emitted for a sub-range are its frame: a length operand is at most 255, and it is the payload's length. -/
theorem frame_slice (c : Config) (s : State) (off : Nat) (len crc : Byte) :
    frame c (slice s off len.toNat) crc = some (frameBytes c len (slice s off len.toNat) crc) := by
  have hlen : len.toNat ≤ 255 := Nat.le_of_lt_succ len.isLt
  simp [frame, hlen]

/-- Every command leaves `tx` or appends one whole frame. -/
theorem Effect.appendsAtMostAFrame {s t : State} {i : Instr} (he : Effect s t i) : AppendsAtMostAFrame s t := by
  cases i with
  | bclr | cinit | cbyte =>
    obtain rfl := he
    exact .inl rfl
  | bpush | crc =>
    rcases he with ⟨-, rfl⟩ | ⟨-, rfl⟩ <;> exact .inl rfl
  | enc | frame =>
    rcases he with ⟨-, rfl⟩ | ⟨-, rfl⟩
    · exact .inl rfl
    · exact .inr ⟨_, _, _, frame_slice _ _ _ _ _, rfl⟩

/-- A step at a command boundary appends at most one frame, unless it is a reset, which empties `tx`. -/
theorem step_idle_tx {s t : State} (hi : s.phase = .idle) (h : step s = .next t) :
    AppendsAtMostAFrame s t ∨ (∃ p rest, s.host = p :: rest ∧ p.rst = true ∧ t.tx = []) := by
  obtain ⟨_, ⟨l, rfl⟩, rfl | ⟨rfl, p, rest, hh, hr⟩ | ⟨w, rfl⟩ | ⟨i, heff⟩⟩ := step_idle_effect hi h
  · exact .inl (.inl rfl)
  · exact .inr ⟨p, rest, hh, hr, rfl⟩
  · exact .inl (.inl rfl)
  · exact .inl heff.appendsAtMostAFrame

/-- Settles O55: a step at a command boundary adds nothing or a whole frame, or empties `tx`. -/
theorem stepKeepsWholeFrames : Obligations.StepKeepsWholeFrames := by
  intro s t hi hwhole hstep
  rcases step_idle_tx hi hstep with (htx | ⟨p, crc, f, hf, htx⟩) | ⟨-, -, -, -, htx⟩ <;> rw [htx]
  · exact hwhole
  · exact hwhole.snoc hf
  · exact .nil

/-- Settles O54: at a command boundary by `step_idle_tx`; a busy block's sequencer only appends. -/
theorem txOnlyGrows : Obligations.TxOnlyGrows := by
  intro s t hstep
  by_cases hi : s.phase = .idle
  · rcases step_idle_tx hi hstep with (htx | ⟨p, crc, f, -, htx⟩) | ⟨p, rest, hh, hr, htx⟩
    · exact .inl (htx ▸ List.prefix_rfl)
    · exact .inl (htx ▸ List.prefix_append _ _)
    · exact .inr ⟨p, rest, hi, hh, hr, htx⟩
  · obtain ⟨bs, ht⟩ := seqStep_next (step_busy hi ▸ hstep)
    have htx : t.tx = s.tx ++ bs := congrArg State.tx ht
    exact .inl (htx ▸ List.prefix_append _ _)

/-! ### States that differ only in what no rule can read

Each operation is taken to two states with `SameReadable`. The output ports after it are one function of the ports before it,
so `congrArg` of that function gives the field `ports`. -/

section
variable {s t : State} (h : SameReadable s t)
include h

theorem SameReadable.blen_eq : s.blen = t.blen := congrArg OutPorts.blenOut h.ports

theorem SameReadable.fault_eq : s.fault = t.fault := congrArg OutPorts.fault h.ports

/-- Whatever the host's list becomes, if it becomes the same. -/
theorem SameReadable.setHost (l : List PortInput) : SameReadable { s with host := l } { t with host := l } :=
  { h with host := rfl }

/-- `acc` computed from `acc`. -/
theorem SameReadable.mapAcc (f : Byte → Byte) : SameReadable { s with acc := f s.acc } { t with acc := f t.acc } :=
  { h with ports := congrArg (fun o : OutPorts => { o with crcOut := f o.crcOut }) h.ports }

theorem SameReadable.raise (f : FaultCause) (w : Word) : SameReadable (raise f w s) (raise f w t) :=
  { h with
    ports := congrArg (fun o : OutPorts => { o with fault := true, cause := faultCode f, finfo := w }) h.ports }

theorem SameReadable.emitFrame (c : Config) (off : Half) (len : Byte) (p : List Byte) :
    SameReadable (emitFrame c off len p s) (emitFrame c off len p t) :=
  { h with
    ports := congrArg (fun o : OutPorts => { o with tx := o.tx ++ frameBytes c len p o.crcOut }) h.ports
    idx := rfl }

theorem SameReadable.clear : SameReadable { s with blen := 0#16 } { t with blen := 0#16 } :=
  { h with
    ports := congrArg (fun o : OutPorts => { o with blenOut := 0#16 }) h.ports
    valid := fun _ ha => absurd ha (Nat.not_lt_zero _) }

/-- Reset sets every port, and no byte of `buf` is below `blen = 0` after it. -/
theorem SameReadable.resetBlock : SameReadable (resetBlock s) (resetBlock t) where
  ports := rfl
  phase := rfl
  idx := rfl
  host := h.host
  valid _ ha := absurd ha (Nat.not_lt_zero _)

end

/-- What a byte of `buf` reads as after a push of `v` at `a`. -/
theorem bufByte_push (s : State) (a : Nat) (v : Byte) (n : Half) (b : Nat) :
    bufByte { s with buf := Memory.insert a v s.buf, blen := n } b = if b = a then v else bufByte s b := by
  unfold bufByte
  split
  next hba => simp [hba, lookup_insert_same]
  next hba => simp [lookup_insert_other v s.buf hba]

/-- A byte pushed at one address to both buffers is the only byte that comes below `blen`. -/
theorem SameReadable.push {s t : State} (h : SameReadable s t) (hroom : s.blen.toNat < Config.hw.bufCap) (d : Byte) :
    SameReadable { s with buf := Memory.insert s.blen.toNat d s.buf, blen := s.blen + 1#16 }
      { t with buf := Memory.insert s.blen.toNat d t.buf, blen := s.blen + 1#16 } :=
  { h with
    ports := congrArg (fun o : OutPorts => { o with blenOut := s.blen + 1#16 }) h.ports
    valid := fun a ha => by
      have hle : a < s.blen.toNat + 1 := blen_succ_toNat hroom ▸ ha
      rw [bufByte_push, bufByte_push]
      split
      next => rfl
      next hne => exact h.valid a (by omega) }

/-- A read below `blen` answers the same in both, a byte or a stop. -/
theorem SameReadable.readBytes_eq {s t : State} (h : SameReadable s t) (c : Config) {a n : Nat}
    (hin : a + n ≤ s.blen.toNat) : readBytes c s a n = readBytes c t a n := by
  induction n generalizing a with
  | zero => rfl
  | succ n ih =>
    have hread : memRead c a s = memRead c a t := by rw [memRead, memRead, h.valid a (by omega)]
    rw [readBytes, readBytes, hread, ih (by omega)]

/-! ### Commands and steps keep such states alike -/

section
variable {s t : State} (h : SameReadable s t)
include h

/-- The common precondition reads `phase` and `fault`, which agree. -/
theorem SameReadable.command_rel {b b' : Res} (hbody : OutcomeRel SameReadable b b') :
    OutcomeRel SameReadable (command s b) (command t b') := by
  unfold command busy halted
  rw [← h.phase, ← h.fault_eq]
  split
  · exact rfl
  · split
    · exact h
    · exact hbody

/-- The range check reads `blen` and bytes below it, which agree. -/
theorem SameReadable.withRange_rel {c : Config} {w : Word} {off : Half} {len : Byte} {f f' : List Byte → State}
    (hbody : ∀ p, SameReadable (f p) (f' p)) :
    OutcomeRel SameReadable (withRange c w off len s fun p => .next (f p))
      (withRange c w off len t fun p => .next (f' p)) := by
  unfold withRange validRange
  rw [← h.blen_eq]
  by_cases hv : off.toNat + len.toNat ≤ s.blen.toNat
  · simp only [hv, decide_true, if_true, ← h.readBytes_eq c hv]
    cases readBytes c s off.toNat len.toNat with
    | ok p => exact hbody p
    | error e => exact rfl
  · simp only [hv, decide_false, Bool.false_eq_true, if_false]
    exact h.raise _ _

/-- A push reads `blen` alone. -/
theorem SameReadable.pushByte_rel (w : Word) (d : Byte) :
    OutcomeRel SameReadable (pushByte Config.hw w d s) (pushByte Config.hw w d t) := by
  unfold pushByte memWrite
  rw [← h.blen_eq]
  by_cases hfull : s.blen.toNat = Config.hw.bufCap
  · simp only [hfull, if_true]
    exact h.raise _ _
  · by_cases hroom : s.blen.toNat < Config.hw.bufCap
    · simp only [hfull, hroom, if_true, if_false]
      exact h.push hroom d
    · simp only [hfull, hroom, if_false]
      exact rfl

/-- Every command, by what it reads and writes. -/
theorem SameReadable.exec_rel (i : Instr) : OutcomeRel SameReadable (exec i s) (exec i t) := by
  cases i with
  | bclr => exact h.command_rel h.clear
  | bpush d => exact h.command_rel (h.pushByte_rel _ d)
  | cinit => exact h.command_rel (h.mapAcc fun _ => 0x00#8)
  | cbyte d => exact h.command_rel (h.mapAcc fun a => crcByte Config.hw.poly a d)
  | crc => exact h.command_rel (h.withRange_rel fun p => h.mapAcc fun _ => computeCrc Config.hw p)
  | enc off len => exact h.command_rel (h.withRange_rel fun p => h.emitFrame _ off len p)
  | frame off len =>
    exact h.command_rel (h.withRange_rel fun p => (h.mapAcc fun _ => computeCrc Config.hw p).emitFrame _ off len p)

/-- Every word, one that is no command as well. -/
theorem SameReadable.runWord_rel (w : Word) : OutcomeRel SameReadable (runWord w s) (runWord w t) := by
  refine h.command_rel ?_
  cases decode w with
  | error => exact h.raise _ _
  | ok i => exact h.exec_rel i

/-- Every presentation of the ports at a command boundary. -/
theorem SameReadable.present_rel (hi : s.phase = .idle) (p : PortInput) :
    OutcomeRel SameReadable (present p s) (present p t) := by
  have hi' : t.phase = .idle := h.phase ▸ hi
  cases hr : p.rst with
  | true =>
    rw [present_rst hi hr, present_rst hi' hr]
    exact h.resetBlock
  | false =>
    cases hc : p.cmd with
    | none =>
      rw [present_none hi hr hc, present_none hi' hr hc]
      exact h
    | some w =>
      rw [present_word hi hr hc, present_word hi' hr hc]
      exact h.runWord_rel w

end

/-- Settles O56: both states take the same presentation, and every presentation keeps them alike. -/
theorem unreadableStateIsInvisible : Obligations.UnreadableStateIsInvisible := by
  intro s t hi h
  have hi' : t.phase = .idle := h.phase ▸ hi
  cases hh : s.host with
  | nil =>
    rw [step_of_host_nil hi hh, step_of_host_nil hi' (h.host ▸ hh)]
    exact h
  | cons p rest =>
    rw [step_of_host_cons hi hh, step_of_host_cons hi' (h.host ▸ hh)]
    exact (h.setHost rest).present_rel hi p

/-! ### The reset state -/

/-- Settles O13: the values are those of the definition. -/
theorem resetStateValues : Obligations.ResetStateValues := ⟨rfl, rfl, rfl, rfl, rfl, rfl, rfl, rfl⟩

/-- Settles O51: the reset state is what a reset makes of itself, and the empty stream is zero frames. -/
theorem resetMeetsInv : Obligations.ResetMeetsInv := ⟨inv_resetBlock wf_reset, .nil⟩

end Sys2Proof.Machine
end

section
/-! PROOFS. The sub-range check of `CRC`, `ENC` and `FRAME` (`20_memory.md` R31): where it holds, and that these three commands
record `InvalidRange` and do nothing else where it fails. -/

namespace Sys2Proof.Machine

/-! ### Where the check holds -/

/-- The check is the rule's comparison, the sum in natural numbers. -/
@[simp] theorem validRange_iff {s : State} {off : Half} {len : Byte} :
    validRange s off len = true ↔ off.toNat + len.toNat ≤ s.blen.toNat := decide_eq_true_iff

@[simp] theorem validRange_eq_false_iff {s : State} {off : Half} {len : Byte} :
    validRange s off len = false ↔ s.blen.toNat < off.toNat + len.toNat := by
  rw [← Bool.not_eq_true, validRange_iff, Nat.not_le]

/-- The empty sub-range is valid up to and including `off = blen`. -/
theorem validRange_empty_iff {s : State} {off : Half} : validRange s off 0#8 = true ↔ off.toNat ≤ s.blen.toNat :=
  validRange_iff

/-! ### What the commands do where it fails -/

/-- A sub-range command of a ready block whose check fails leaves the record of `InvalidRange`, whatever its body. -/
theorem command_withRange_invalid {c : Config} {w : Word} {off : Half} {len : Byte} {s : State} {body : List Byte → Res}
    (hr : Ready s) (hv : s.blen.toNat < off.toNat + len.toNat) :
    command s (withRange c w off len s body) = .next (withRecord 1#8 w s) :=
  (command_ready hr _).trans (withRange_invalid hv)

/-- `CRC`, `ENC` and `FRAME` record `InvalidRange` with their own word (`60_exceptions.md` R114). -/
theorem exec_of_invalid_range {s : State} {off : Half} {len : Byte} {i : Instr} (hr : Ready s)
    (hv : s.blen.toNat < off.toNat + len.toNat) (hi : i ∈ [Instr.crc off len, .enc off len, .frame off len]) :
    exec i s = .next (withRecord 1#8 (encode i) s) := by
  simp only [List.mem_cons, List.not_mem_nil, or_false] at hi
  rcases hi with rfl | rfl | rfl <;> exact command_withRange_invalid hr hv

/-! ### The obligation -/

/-- Settles O14: the check is a comparison of natural numbers, and its failure is `exec_of_invalid_range`. -/
theorem subRangeCheck : Obligations.SubRangeCheck := by
  intro s off len
  refine ⟨validRange_iff, ?below, validRange_empty_iff, ?atEnd, ?pastEnd, ?atZero, ?noWrap, ?fails⟩
  case below =>
    intro hv i hi
    exact (Nat.add_lt_add_left hi _).trans_le (validRange_iff.mp hv)
  case atEnd => exact validRange_empty_iff.mpr le_rfl
  case pastEnd =>
    intro hoff
    exact validRange_eq_false_iff.mpr (hoff ▸ Nat.lt_succ_self _)
  case atZero => exact validRange_empty_iff.mpr (Nat.zero_le _)
  case noWrap =>
    have hoff : off.toNat ≤ 65535 := Nat.le_of_lt_succ off.isLt
    have hlen : len.toNat ≤ 255 := Nat.le_of_lt_succ len.isLt
    exact Nat.add_le_add hoff hlen
  case fails => exact fun hr hv _ hi => exec_of_invalid_range hr (validRange_eq_false_iff.mp hv) hi

end Sys2Proof.Machine
end

section
/-! PROOFS. Command words (`30_encoding.md` R43, R47): their fields, when a row of the opcode map selects a word, what the
decoder answers, and that decoding and encoding are inverse to each other. -/

namespace Sys2Proof

/-! ### The three fields of a word -/

/-- The low 24 bits of a word are its offset field and its low byte. -/
theorem wordOff_append_wordLow (w : Word) : wordOff w ++ wordLow w = w.extractLsb' 0 24 :=
  BitVec.extractLsb'_append_extractLsb'_eq_extractLsb' rfl

/-- The fields `op`, `off` and the low byte cover a word (`30_encoding.md` R43). -/
theorem wordOp_append (w : Word) : wordOp w ++ (wordOff w ++ wordLow w) = w := by
  rw [wordOff_append_wordLow]
  exact (BitVec.extractLsb'_append_extractLsb'_eq_extractLsb' rfl).trans BitVec.extractLsb'_eq_self

/-- Words are equal when their fields are. -/
theorem word_ext_iff {v w : Word} : v = w ↔ wordOp v = wordOp w ∧ wordOff v = wordOff w ∧ wordLow v = wordLow w := by
  constructor
  · rintro rfl
    exact ⟨rfl, rfl, rfl⟩
  · rintro ⟨hop, hoff, hlow⟩
    rw [← wordOp_append v, ← wordOp_append w, hop, hoff, hlow]

@[simp] theorem wordOp_or (v w : Word) : wordOp (v ||| w) = wordOp v ||| wordOp w := BitVec.extractLsb'_or
@[simp] theorem wordOff_or (v w : Word) : wordOff (v ||| w) = wordOff v ||| wordOff w := BitVec.extractLsb'_or
@[simp] theorem wordLow_or (v w : Word) : wordLow (v ||| w) = wordLow v ||| wordLow w := BitVec.extractLsb'_or

@[simp] theorem wordOp_and (v w : Word) : wordOp (v &&& w) = wordOp v &&& wordOp w := BitVec.extractLsb'_and
@[simp] theorem wordOff_and (v w : Word) : wordOff (v &&& w) = wordOff v &&& wordOff w := BitVec.extractLsb'_and
@[simp] theorem wordLow_and (v w : Word) : wordLow (v &&& w) = wordLow v &&& wordLow w := BitVec.extractLsb'_and

/-! The byte operand and the shifted offset, as `encode` places them, fill their own field alone. -/

@[simp] theorem wordOp_byte (d : Byte) : wordOp (d.setWidth 32) = 0#8 := by
  ext i hi
  simp [wordOp, BitVec.getLsbD_setWidth, BitVec.getLsbD_of_ge d (24 + i) (by omega)]

@[simp] theorem wordOff_byte (d : Byte) : wordOff (d.setWidth 32) = 0#16 := by
  ext i hi
  simp [wordOff, BitVec.getLsbD_setWidth]

@[simp] theorem wordLow_byte (d : Byte) : wordLow (d.setWidth 32) = d :=
  (BitVec.extractLsb'_setWidth_of_le (by decide)).trans BitVec.extractLsb'_eq_self

@[simp] theorem wordOp_offset (off : Half) : wordOp (off.setWidth 32 <<< 8) = 0#8 := by
  ext i hi
  simp [wordOp, BitVec.getLsbD_of_ge off (24 + i - 8) (by omega)]

@[simp] theorem wordOff_offset (off : Half) : wordOff (off.setWidth 32 <<< 8) = off := by
  ext i hi
  simp [wordOff, show 8 + i < 32 by omega, BitVec.getLsbD_eq_getElem hi]

@[simp] theorem wordLow_offset (off : Half) : wordLow (off.setWidth 32 <<< 8) = 0#8 := by
  ext i hi
  simp [wordLow, hi]

/-! ### The rows of the opcode map -/

/-- The seven mnemonics in the order of the opcode map. -/
def mnemonics : List Mnemonic := [.bclr, .bpush, .cinit, .cbyte, .crc, .enc, .frame]

theorem mem_mnemonics (m : Mnemonic) : m ∈ mnemonics := by cases m <;> decide

theorem opcodeMap_eq : opcodeMap = mnemonics.map opRow := rfl

/-- A property of every row of the map is one of the row of every mnemonic. -/
theorem forall_mem_opcodeMap {p : OpRow → Prop} : (∀ r ∈ opcodeMap, p r) ↔ ∀ m, p (opRow m) := by
  simp [opcodeMap_eq, mem_mnemonics]

/-- The `op` value of a mnemonic's words. -/
def Mnemonic.op : Mnemonic → Byte
  | .bclr => 0x01#8
  | .bpush => 0x02#8
  | .cinit => 0x10#8
  | .cbyte => 0x11#8
  | .crc => 0x12#8
  | .enc => 0x20#8
  | .frame => 0x21#8

/-- No two mnemonics share an `op` value. -/
theorem op_injective : Function.Injective Mnemonic.op := fun m n h =>
  List.inj_on_of_nodup_map (l := mnemonics) (by decide) (mem_mnemonics m) (mem_mnemonics n) h

@[simp] theorem wordOp_pattern (m : Mnemonic) : wordOp (opRow m).pattern = m.op := by cases m <;> rfl
@[simp] theorem wordOff_pattern (m : Mnemonic) : wordOff (opRow m).pattern = 0#16 := by cases m <;> rfl
@[simp] theorem wordLow_pattern (m : Mnemonic) : wordLow (opRow m).pattern = 0#8 := by cases m <;> rfl

theorem wordOp_mask (m : Mnemonic) : wordOp (opRow m).mask = BitVec.allOnes 8 := by cases m <;> rfl

theorem wordOff_mask (m : Mnemonic) :
    wordOff (opRow m).mask = if m.format ≠ .r then BitVec.allOnes 16 else 0#16 := by cases m <;> rfl

theorem wordLow_mask (m : Mnemonic) :
    wordLow (opRow m).mask = if m.format = .z then BitVec.allOnes 8 else 0#8 := by cases m <;> rfl

/-- A field under a mask that covers it whole or not at all. -/
theorem and_mask_eq_zero_iff {n : Nat} {c : Prop} [Decidable c] {x : BitVec n} :
    x &&& (if c then BitVec.allOnes n else 0#n) = 0#n ↔ (c → x = 0#n) := by
  split <;> simp [*]

/-- A row selects the words of its `op` value in which the fields its format leaves out are zero. -/
theorem selects_iff {m : Mnemonic} {w : Word} : (opRow m).selects w = true ↔
    wordOp w = m.op ∧ (m.format ≠ .r → wordOff w = 0#16) ∧ (m.format = .z → wordLow w = 0#8) := by
  simp only [OpRow.selects, beq_iff_eq, word_ext_iff, wordOp_and, wordOff_and, wordLow_and, wordOp_pattern,
    wordOff_pattern, wordLow_pattern, wordOp_mask, wordOff_mask, wordLow_mask, BitVec.and_allOnes, and_mask_eq_zero_iff]

/-- No word is selected by two rows. -/
theorem selects_unique {m n : Mnemonic} {w : Word} (hm : (opRow m).selects w = true)
    (hn : (opRow n).selects w = true) : m = n :=
  op_injective ((selects_iff.mp hm).1.symm.trans (selects_iff.mp hn).1)

/-! ### The word of a command -/

theorem encodeZ_eq_iff {m : Mnemonic} {w : Word} :
    encodeZ m = w ↔ m.op = wordOp w ∧ 0#16 = wordOff w ∧ 0#8 = wordLow w := by
  simp [encodeZ, word_ext_iff]

theorem encodeB_eq_iff {m : Mnemonic} {d : Byte} {w : Word} :
    encodeB m d = w ↔ m.op = wordOp w ∧ 0#16 = wordOff w ∧ d = wordLow w := by
  simp [encodeB, word_ext_iff]

theorem encodeR_eq_iff {m : Mnemonic} {off : Half} {len : Byte} {w : Word} :
    encodeR m off len = w ↔ m.op = wordOp w ∧ off = wordOff w ∧ len = wordLow w := by
  simp [encodeR, word_ext_iff]

/-- The command of a row on a word: the row's operands are the word's fields. -/
def rowCommand (m : Mnemonic) (w : Word) : Instr :=
  match m with
  | .bclr => .bclr
  | .bpush => .bpush (wordLow w)
  | .cinit => .cinit
  | .cbyte => .cbyte (wordLow w)
  | .crc => .crc (wordOff w) (wordLow w)
  | .enc => .enc (wordOff w) (wordLow w)
  | .frame => .frame (wordOff w) (wordLow w)

@[simp] theorem rowCommand_mnemonic (m : Mnemonic) (w : Word) : (rowCommand m w).mnemonic = m := by cases m <;> rfl

/-- The word of a command is a word of its row (`30_encoding.md` R47). -/
theorem selects_encode (i : Instr) : (opRow i.mnemonic).selects (encode i) = true := by
  cases i with
  | bclr => exact Laws.RowMatch.bclr
  | bpush d => exact Laws.RowMatch.bpush d
  | cinit => exact Laws.RowMatch.cinit
  | cbyte d => exact Laws.RowMatch.cbyte d
  | crc off len => exact Laws.RowMatch.crc off len
  | enc off len => exact Laws.RowMatch.enc off len
  | frame off len => exact Laws.RowMatch.frame off len

/-- The operands of a command are read back from its word. -/
theorem rowCommand_encode (i : Instr) : rowCommand i.mnemonic (encode i) = i := by
  cases i with
  | bclr | cinit => rfl
  | bpush | cbyte => simp [rowCommand, Instr.mnemonic, encode, encodeB]
  | crc | enc | frame => simp [rowCommand, Instr.mnemonic, encode, encodeR]

/-- A word a row selects is the word of that row's command: what the format leaves out is zero. -/
theorem encode_rowCommand {m : Mnemonic} {w : Word} (h : (opRow m).selects w = true) :
    encode (rowCommand m w) = w := by
  obtain ⟨hop, hoff, hlow⟩ := selects_iff.mp h
  cases m with
  | bclr | cinit => exact encodeZ_eq_iff.mpr ⟨hop.symm, (hoff nofun).symm, (hlow rfl).symm⟩
  | bpush | cbyte => exact encodeB_eq_iff.mpr ⟨hop.symm, (hoff nofun).symm, rfl⟩
  | crc | enc | frame => exact encodeR_eq_iff.mpr ⟨hop.symm, rfl, rfl⟩

/-! ### The decoder -/

/-- The `op` values the map assigns are those of the mnemonics. -/
theorem opAssigned_iff {op : Byte} : opAssigned op = true ↔ ∃ m, Mnemonic.op m = op := by
  simp [opAssigned, opcodeMap_eq, mem_mnemonics]

/-- What the decoder answers: the command of a row that selects the word, or, where none does, the reason. -/
theorem decode_cases (w : Word) :
    (∃ m, (opRow m).selects w = true ∧ decode w = .ok (rowCommand m w)) ∨
    ((∀ m, (opRow m).selects w = false) ∧
      decode w = .error (if opAssigned (wordOp w) then .mustBeZero (wordOp w) else .unassignedOp (wordOp w))) := by
  unfold decode
  split_ifs with bclr bpush cinit cbyte crc enc frame hop
  · exact .inl ⟨.bclr, bclr, rfl⟩
  · exact .inl ⟨.bpush, bpush, rfl⟩
  · exact .inl ⟨.cinit, cinit, rfl⟩
  · exact .inl ⟨.cbyte, cbyte, rfl⟩
  · exact .inl ⟨.crc, crc, rfl⟩
  · exact .inl ⟨.enc, enc, rfl⟩
  · exact .inl ⟨.frame, frame, rfl⟩
  all_goals
    refine .inr ⟨fun m => ?_, rfl⟩
    cases m <;> exact Bool.eq_false_of_not_eq_true ‹_›

/-- A word that a row selects decodes to that row's command: no other row selects it. -/
theorem decode_of_selects {m : Mnemonic} {w : Word} (hm : (opRow m).selects w = true) :
    decode w = .ok (rowCommand m w) := by
  rcases decode_cases w with ⟨n, hn, hok⟩ | ⟨hnone, -⟩
  · rwa [selects_unique hm hn]
  · simp [hnone] at hm

/-- A word decodes to `i` exactly when the row of `i` selects it and `i` has the row's operands (`30_encoding.md` R47). -/
theorem decode_eq_ok_iff {w : Word} {i : Instr} :
    decode w = .ok i ↔ (opRow i.mnemonic).selects w = true ∧ i = rowCommand i.mnemonic w := by
  constructor
  · intro hd
    rcases decode_cases w with ⟨m, hm, hok⟩ | ⟨-, herr⟩
    · obtain rfl : rowCommand m w = i := by simpa [hok] using hd
      simpa using hm
    · simp [herr] at hd
  · rintro ⟨hm, hi⟩
    rw [decode_of_selects hm, ← hi]

/-- A word no row selects is rejected, and every other word decodes (`30_encoding.md` R48). -/
theorem decode_error_iff {w : Word} : (∃ e, decode w = .error e) ↔ ∀ m, (opRow m).selects w = false := by
  rcases decode_cases w with ⟨m, hm, hok⟩ | ⟨hnone, herr⟩
  · simp only [hok, reduceCtorEq, exists_false, false_iff]
    exact fun hnone => by simp [hnone] at hm
  · exact iff_of_true ⟨_, herr⟩ hnone

/-- A word of an unassigned `op` value is rejected as such. -/
theorem decode_of_unassigned {w : Word} (hop : ∀ m, wordOp w ≠ Mnemonic.op m) :
    decode w = .error (.unassignedOp (wordOp w)) := by
  have hna : ¬ opAssigned (wordOp w) = true := fun h => by
    obtain ⟨m, hm⟩ := opAssigned_iff.mp h
    exact hop m hm.symm
  rcases decode_cases w with ⟨m, hm, -⟩ | ⟨-, herr⟩
  · exact absurd (selects_iff.mp hm).1 (hop m)
  · rwa [if_neg hna] at herr

/-- A word of a row's `op` value that the row does not select has a non-zero must-be-zero field. -/
theorem decode_of_mustBeZero {m : Mnemonic} {w : Word} (hop : wordOp w = m.op) (hsel : ¬ (opRow m).selects w = true) :
    decode w = .error (.mustBeZero (wordOp w)) := by
  rcases decode_cases w with ⟨n, hn, -⟩ | ⟨-, herr⟩
  · obtain rfl : m = n := op_injective (hop.symm.trans (selects_iff.mp hn).1)
    exact absurd hn hsel
  · rwa [if_pos (opAssigned_iff.mpr ⟨m, hop.symm⟩)] at herr

/-! ### The round trips and the opcode map -/

/-- Settles O1: the word of a command is selected by its row, and its fields are the operands. -/
theorem decodeEncodeRoundTrip : Obligations.DecodeEncodeRoundTrip := fun i =>
  decode_eq_ok_iff.mpr ⟨selects_encode i, (rowCommand_encode i).symm⟩

/-- Settles O2: a word that decodes is selected by a row, and no bit of it is outside the row's pattern and operands. -/
theorem encodeDecodeRoundTrip : Obligations.EncodeDecodeRoundTrip := by
  intro w i hd
  obtain ⟨hsel, hi⟩ := decode_eq_ok_iff.mp hd
  rw [hi]
  exact encode_rowCommand hsel

/-- Settles O3: each clause of the map is `decode_eq_ok_iff` at one row; two rows never agree on `op`. -/
theorem opcodeMapSelectsCommand : Obligations.OpcodeMapSelectsCommand := by
  refine ⟨fun w => ⟨?bclr, ?bpush, ?cinit, ?cbyte, ?crc, ?enc, ?frame⟩, ?disjoint, ?examples⟩
  case disjoint =>
    have hne : mnemonics.Pairwise (· ≠ ·) := by decide
    rw [opcodeMap_eq, List.pairwise_map]
    exact hne.imp fun hmn w ⟨hm, hn⟩ => hmn (selects_unique hm hn)
  case examples => exact ⟨rfl, rfl, rfl, rfl, rfl⟩
  all_goals
    intros
    rw [decode_eq_ok_iff]
    simp [OpRow.selects, opRow, Instr.mnemonic, rowCommand, wordLow, wordOff]

/-- Settles O5: the decoder run on each word. -/
theorem specWordsDecode : Obligations.SpecWordsDecode := ⟨rfl, rfl, rfl, rfl, rfl, rfl, rfl, rfl, rfl⟩

end Sys2Proof
end

section
/-! PROOFS. The words the decoder rejects (`30_encoding.md` R48) and what they do to the block (`60_exceptions.md` R115). -/

namespace Sys2Proof

/-- The `op` values of a format's rows. -/
def formatOps (f : Format) : List Byte := (mnemonics.filter fun m => m.format = f).map Mnemonic.op

theorem mem_formatOps_iff {f : Format} {op : Byte} : op ∈ formatOps f ↔ ∃ m, m.format = f ∧ Mnemonic.op m = op := by
  simp [formatOps, mem_mnemonics]

/-- A word the decoder rejects raises `IllegalCommand` in a ready block (`60_exceptions.md` R115). -/
theorem Machine.runWord_of_rejected {w : Word} {s : State} (hd : ∃ e, decode w = .error e) (hr : Ready s) :
    runWord w s = .next (raise .illegalCommand w s) := by
  obtain ⟨e, he⟩ := hd
  rw [runWord, command_ready hr, he]

/-- Settles O4: a word with the `op` of a row is rejected only for a non-zero field that the row's format leaves out, and a
word with no row's `op` always. -/
theorem illegalWordsRaiseIllegalCommand : Obligations.IllegalWordsRaiseIllegalCommand := by
  refine ⟨?rejected, ?raised, ?unassigned, ?count, ?formatZ, ?formatB, ?formatR, ?examples⟩
  case rejected =>
    intro w
    rw [decode_error_iff, forall_mem_opcodeMap]
    simp [OpRow.selects]
  case raised => exact fun _ _ hd hr => Machine.runWord_of_rejected hd hr
  case unassigned =>
    intro w hop
    exact decode_of_unassigned fun m hm => hop (hm ▸ List.mem_map_of_mem (mem_mnemonics m))
  case count => decide +kernel
  case formatZ =>
    intro w hop hne
    obtain ⟨m, hz, hm⟩ := (mem_formatOps_iff (f := .z)).mp hop
    refine decode_of_mustBeZero hm.symm fun hsel => hne ?_
    obtain ⟨-, hoff, hlow⟩ := selects_iff.mp hsel
    rw [← wordOff_append_wordLow, hoff (by simp [hz]), hlow hz]
    rfl
  case formatB =>
    intro w hop hne
    obtain ⟨m, hb, hm⟩ := (mem_formatOps_iff (f := .b)).mp hop
    refine decode_of_mustBeZero hm.symm fun hsel => hne ?_
    obtain ⟨-, hoff, -⟩ := selects_iff.mp hsel
    exact hoff (by simp [hb])
  case formatR =>
    intro w hop
    obtain ⟨m, hr, hm⟩ := (mem_formatOps_iff (f := .r)).mp hop
    exact ⟨_, decode_of_selects (selects_iff.mpr ⟨hm.symm, by simp [hr], by simp [hr]⟩)⟩
  case examples =>
    simp only [List.forall_mem_cons, List.not_mem_nil, false_imp_iff, implies_true, and_true]
    exact ⟨⟨_, rfl⟩, ⟨_, rfl⟩, ⟨_, rfl⟩, ⟨_, rfl⟩⟩

end Sys2Proof
end

section
/-! PROOFS. Lines of program text (`30_encoding.md` R55, R56). -/

namespace Sys2Proof

/-- A line stands for a command exactly when it is well formed (`30_encoding.md` R55). -/
theorem assemble_isSome_iff (l : AsmLine) : (∃ i, assemble l = some i) ↔ l.wf = true := by
  obtain ⟨m, ops⟩ := l
  cases m with
  | bclr | cinit => cases ops <;> simp [assemble, AsmLine.wf, Mnemonic.format]
  | bpush | cbyte => rcases ops with _ | ⟨d, _ | ⟨_, _⟩⟩ <;> simp [assemble, AsmLine.wf, Mnemonic.format]
  | crc | enc | frame =>
    rcases ops with _ | ⟨off, _ | ⟨len, _ | ⟨_, _⟩⟩⟩ <;> simp [assemble, AsmLine.wf, Mnemonic.format]

/-- A command's own line stands for it: every operand is in its field's range. -/
theorem assemble_asmLine (i : Instr) : assemble i.asmLine = some i := by
  have hbyte (d : Byte) : d.toNat ≤ 255 := Nat.le_of_lt_succ d.isLt
  have hhalf (off : Half) : off.toNat ≤ 65535 := Nat.le_of_lt_succ off.isLt
  cases i with
  | bclr | cinit => rfl
  | bpush | cbyte => simp [assemble, Instr.asmLine, hbyte]
  | crc | enc | frame => simp [assemble, Instr.asmLine, hbyte, hhalf]

/-- Settles O6: a line by its mnemonic and number of operands, a command by its constructor. -/
theorem assembleExactlyWellFormedLines : Obligations.AssembleExactlyWellFormedLines :=
  ⟨assemble_isSome_iff, assemble_asmLine⟩

end Sys2Proof
end

section
/-! PROOFS. The buffer commands `BCLR` and `BPUSH` (`40_buffer_ops.md` R57 to R59): what they leave, what the commands beside
`ENC` and `FRAME` leave unchanged (`10_state.md` R23), and the bytes a run of command words puts into `buf`. -/

namespace Sys2Proof.Machine

/-! ### A pushed byte -/

/-- `s` with `d` stored at address `blen` and counted (`40_buffer_ops.md` R58). -/
def pushed (d : Byte) (s : State) : State := { s with buf := Memory.insert s.blen.toNat d s.buf, blen := s.blen + 1#16 }

section
variable {d : Byte} {s : State}

theorem bufByte_pushed (a : Nat) : bufByte (pushed d s) a = if a = s.blen.toNat then d else bufByte s a :=
  bufByte_push s _ d _ a

theorem bufByte_pushed_other {a : Nat} (ha : a ≠ s.blen.toNat) : bufByte (pushed d s) a = bufByte s a :=
  (bufByte_pushed a).trans (if_neg ha)

theorem pushed_blen_toNat (hroom : s.blen.toNat < Config.hw.bufCap) :
    (pushed d s).blen.toNat = s.blen.toNat + 1 := blen_succ_toNat hroom

/-- A ready block with a free byte stores the byte. -/
theorem exec_bpush_of_room (hr : Ready s) (hroom : s.blen.toNat < Config.hw.bufCap) :
    exec (.bpush d) s = .next (pushed d s) := by
  rcases pushByte_cases Config.hw (encode (.bpush d)) d s with ⟨hfull, -⟩ | ⟨-, hpush⟩ | ⟨hover, -⟩
  · exact absurd hfull hroom.ne
  · exact (command_ready hr _).trans hpush
  · exact absurd hover hroom.not_gt

/-- A ready block whose buffer is full records `BufferFull` (`60_exceptions.md` R116). -/
theorem exec_bpush_of_full (hr : Ready s) (hfull : s.blen.toNat = Config.hw.bufCap) :
    exec (.bpush d) s = .next (withRecord 3#8 (encode (.bpush d)) s) :=
  (command_ready hr _).trans (if_pos hfull)

theorem exec_bclr (hr : Ready s) : exec .bclr s = .next { s with blen := 0#16 } := command_ready hr _

end

/-- Settles O20: the byte just stored is read back at the old `blen`, and no other address was written. -/
theorem bpushResult : Obligations.BpushResult := by
  refine ⟨fun _ => rfl, ?stored, fun s d => exec_bpush_of_full⟩
  intro s d hr hroom
  exact ⟨pushed d s, exec_bpush_of_room hr hroom, pushed_blen_toNat hroom, (bufByte_pushed _).trans (if_pos rfl),
    lookup_insert_same _ _ _, fun _ => bufByte_pushed_other, rfl⟩

/-- Settles O19: with `blen = 0` only the empty sub-range is valid, and the buffer has room for a byte. -/
theorem bclrResult : Obligations.BclrResult := by
  refine ⟨rfl, fun _ => exec_bclr, ?neighbour, ?afterwards⟩
  case neighbour =>
    intro w hop hne
    obtain ⟨-, -, -, -, hformatZ, -⟩ := illegalWordsRaiseIllegalCommand
    exact hop ▸ hformatZ w (by simp [hop]) hne
  case afterwards =>
    intro s hr
    have hr' : Ready { s with blen := 0#16 } := hr
    refine ⟨_, exec_bclr hr, exec_bclr hr', fun off len hv => ?_, fun d => ?_⟩
    · have hsum : off.toNat + len.toNat ≤ 0 := validRange_iff.mp hv
      exact BitVec.eq_of_toNat_eq (Nat.eq_zero_of_le_zero ((Nat.le_add_left _ _).trans hsum))
    · exact ⟨_, exec_bpush_of_room hr' (by decide : 0 < 256), hr.2, rfl⟩

/-! ### What a command's effect leaves unchanged -/

section
variable {s t : State} {i : Instr} (he : Effect s t i)
include he

/-- Only `ENC` and `FRAME` emit and move the sequencer, and no command touches the host's list. -/
theorem Effect.silent (hemit : ∀ off len, i ≠ .enc off len ∧ i ≠ .frame off len) :
    t.tx = s.tx ∧ t.phase = s.phase ∧ t.idx = s.idx ∧ t.sOff = s.sOff ∧ t.sLen = s.sLen ∧ t.host = s.host := by
  cases i with
  | bclr | cinit | cbyte =>
    obtain rfl := he
    simp
  | bpush | crc => rcases he with ⟨-, rfl⟩ | ⟨-, rfl⟩ <;> simp
  | enc off len => exact absurd rfl (hemit off len).1
  | frame off len => exact absurd rfl (hemit off len).2

/-- Only `BPUSH` stores (`10_state.md` R12). -/
theorem Effect.buf_eq (hpush : ∀ d, i ≠ .bpush d) : t.buf = s.buf := by
  cases i with
  | bclr | cinit | cbyte =>
    obtain rfl := he
    rfl
  | bpush d => exact absurd rfl (hpush d)
  | crc | enc | frame => rcases he with ⟨-, rfl⟩ | ⟨-, rfl⟩ <;> rfl

/-- Only `BCLR` and `BPUSH` write `blen` (`10_state.md` R13). -/
theorem Effect.blen_eq (hclr : i ≠ .bclr) (hpush : ∀ d, i ≠ .bpush d) : t.blen = s.blen := by
  cases i with
  | bclr => exact absurd rfl hclr
  | bpush d => exact absurd rfl (hpush d)
  | cinit | cbyte =>
    obtain rfl := he
    rfl
  | crc | enc | frame => rcases he with ⟨-, rfl⟩ | ⟨-, rfl⟩ <;> rfl

/-- How a command changes `blen`: not at all, to 0, or by a push that does not wrap. -/
theorem Effect.blen_cases : t.blen = s.blen ∨ (i = .bclr ∧ t.blen = 0#16) ∨
    ∃ d, i = .bpush d ∧ t.blen.toNat = s.blen.toNat + 1 := by
  cases i with
  | bclr =>
    obtain rfl := he
    exact .inr (.inl ⟨rfl, rfl⟩)
  | bpush d =>
    rcases he with ⟨-, rfl⟩ | ⟨hroom, rfl⟩
    · exact .inl rfl
    · exact .inr (.inr ⟨d, rfl, pushed_blen_toNat hroom⟩)
  | cinit | cbyte | crc | enc | frame => exact .inl (he.blen_eq nofun nofun)

end

/-- Settles O26: a halted block is unchanged; otherwise by what the effect of each of the four writes. -/
theorem registerCommandsFrame : Obligations.RegisterCommandsFrame := by
  intro i s t hi h
  obtain ⟨-, ⟨-, rfl⟩ | ⟨-, he⟩⟩ := exec_next h
  · simp
  have hpush : ∀ d, i ≠ .bpush d := by
    rintro d rfl
    simp at hi
  have hemit : ∀ off len, i ≠ .enc off len ∧ i ≠ .frame off len := by
    refine fun off len => ⟨?_, ?_⟩ <;> rintro rfl <;> simp at hi
  have hbuf := he.buf_eq hpush
  obtain ⟨htx, hphase, hidx, hoff, hlen, hhost⟩ := he.silent hemit
  refine ⟨hbuf, bufByte_congr hbuf, htx, hphase, hidx, hoff, hlen, hhost, ?acc, fun hclr => he.blen_eq hclr hpush,
    ?record, ?invalid⟩
  case acc =>
    rintro rfl
    obtain rfl := he
    rfl
  case record =>
    intro hvalid
    rcases hi with rfl | rfl | ⟨d, rfl⟩ | ⟨off, len, rfl⟩
    iterate 3
      obtain rfl := he
      exact ⟨rfl, rfl, rfl⟩
    rcases he with ⟨hout, -⟩ | ⟨-, rfl⟩
    · exact absurd (validRange_iff.mp (hvalid off len rfl)) hout.not_ge
    · exact ⟨rfl, rfl, rfl⟩
  case invalid =>
    rintro off len rfl hinvalid
    rcases he with ⟨-, rfl⟩ | ⟨hin, -⟩
    · rfl
    · exact absurd hin (validRange_eq_false_iff.mp hinvalid).not_ge

/-- Settles O27: the block was halted and is unchanged, or its buffer was full and the record alone is written, or the byte
is stored at the old `blen`. -/
theorem bpushFrame : Obligations.BpushFrame := by
  intro d s t h
  obtain ⟨-, ⟨-, rfl⟩ | ⟨hrun, ⟨hfull, rfl⟩ | ⟨hroom, rfl⟩⟩⟩ := exec_next h
  · simp
  · exact ⟨fun _ _ _ _ => rfl, fun _ => ⟨rfl, rfl⟩, rfl, rfl, rfl, rfl, rfl, rfl, rfl, fun hne => absurd hfull hne⟩
  · refine ⟨?others, ?unstored, rfl, rfl, rfl, rfl, rfl, rfl, rfl, fun _ => ⟨rfl, rfl, rfl⟩⟩
    case others =>
      rintro a rfl b hb
      exact bufByte_pushed_other hb
    case unstored =>
      rintro (hhalted | hfull)
      · simp [hrun] at hhalted
      · exact absurd hfull hroom.ne

/-! ### The valid bytes of the buffer -/

/-- `buf[0 .. blen)` (`10_state.md` R13). -/
def validBytes (s : State) : List Byte := slice s 0 s.blen.toNat

@[simp] theorem validBytes_length (s : State) : (validBytes s).length = s.blen.toNat := slice_length ..

theorem validBytes_congr {s t : State} (hbuf : t.buf = s.buf) (hblen : t.blen = s.blen) :
    validBytes t = validBytes s := by
  rw [validBytes, hblen, slice_congr hbuf, validBytes]

theorem validBytes_of_blen_zero {s : State} (h : s.blen = 0#16) : validBytes s = [] :=
  List.eq_nil_of_length_eq_zero (by simp [h])

/-- The valid bytes fix `blen` and what the sub-range from 0 on holds. -/
theorem blen_and_slice_of_validBytes {s : State} {p : List Byte} (h : validBytes s = p) :
    s.blen.toNat = p.length ∧ slice s 0 p.length = p := by
  subst h
  rw [validBytes_length]
  exact ⟨rfl, rfl⟩

theorem slice_succ_last (s : State) (off n : Nat) : slice s off (n + 1) = slice s off n ++ [bufByte s (off + n)] := by
  simp [slice, List.range_succ]

/-- A push appends its byte to the valid bytes: it stores above them. -/
theorem validBytes_pushed {s : State} (d : Byte) (hroom : s.blen.toNat < Config.hw.bufCap) :
    validBytes (pushed d s) = validBytes s ++ [d] := by
  have hbelow : slice (pushed d s) 0 s.blen.toNat = validBytes s :=
    List.map_congr_left fun a ha => bufByte_pushed_other (by simpa using (List.mem_range.mp ha).ne)
  rw [validBytes, pushed_blen_toNat hroom, slice_succ_last, hbelow, Nat.zero_add, bufByte_pushed, if_pos rfl]

/-! ### Command words in a row -/

theorem runWords_cons {w : Word} {ws : List Word} {s u : State} (h : runWord w s = .next u) :
    runWords (w :: ws) s = runWords ws u := by
  rw [runWords, h]

/-- A command list answers only through an answer of its first word. -/
theorem runWords_cons_next {w : Word} {ws : List Word} {s t : State} (h : runWords (w :: ws) s = .next t) :
    ∃ u, runWord w s = .next u ∧ runWords ws u = .next t := by
  rw [runWords] at h
  split at h
  next u hu => exact ⟨u, hu, h⟩
  all_goals cases h

/-- A word that leaves no fault met a running block and is a command, which had its effect. -/
theorem runWord_effect {w : Word} {s t : State} (h : runWord w s = .next t) (hf : t.fault = false) :
    s.fault = false ∧ ∃ i, decode w = .ok i ∧ Effect s t i := by
  rcases runWord_cases (w := w) (command_next h).1 with ⟨hs, hrun⟩ | ⟨-, -, hrun⟩ | ⟨hs, i, hd, hrun⟩ <;> rw [hrun] at h
  · cases h
    simp [hs] at hf
  · cases h
    simp at hf
  · rcases exec_next h with ⟨-, ⟨hs', -⟩ | ⟨-, he⟩⟩
    · simp [hs] at hs'
    · exact ⟨hs, i, hd, he⟩

/-- A fault lasts to the end of a command list (`60_exceptions.md` R122). -/
theorem fault_false_of_runWords {ws : List Word} {s t : State} (h : runWords ws s = .next t) (hf : t.fault = false) :
    s.fault = false := by
  induction ws generalizing s with
  | nil =>
    cases h
    exact hf
  | cons w ws ih =>
    obtain ⟨u, hu, hrest⟩ := runWords_cons_next h
    exact (runWord_effect hu (ih hrest)).1

theorem pushedBytes_cons (w : Word) (ws : List Word) : pushedBytes (w :: ws) = pushedBytes [w] ++ pushedBytes ws :=
  List.filterMap_append (l := [w])

theorem pushedBytes_bpush {w : Word} {d : Byte} (hd : decode w = .ok (.bpush d)) : pushedBytes [w] = [d] := by
  simp [pushedBytes, hd]

theorem pushedBytes_other {w : Word} {i : Instr} (hd : decode w = .ok i) (hi : ∀ d, i ≠ .bpush d) :
    pushedBytes [w] = [] := by
  cases i with
  | bpush d => exact absurd rfl (hi d)
  | bclr | cinit | cbyte | crc | enc | frame => simp [pushedBytes, hd]

/-- One word but `BCLR` that leaves no fault puts its pushed byte, if it has one, behind the valid bytes. -/
theorem validBytes_runWord {w : Word} {s t : State} (hclr : decode w ≠ .ok .bclr) (h : runWord w s = .next t)
    (hf : t.fault = false) : validBytes t = validBytes s ++ pushedBytes [w] := by
  obtain ⟨-, i, hd, he⟩ := runWord_effect h hf
  cases i with
  | bclr => exact absurd hd hclr
  | bpush d =>
    rw [pushedBytes_bpush hd]
    rcases he with ⟨-, rfl⟩ | ⟨hroom, rfl⟩
    · simp at hf
    · exact validBytes_pushed d hroom
  | cinit | cbyte | crc | enc | frame =>
    rw [pushedBytes_other hd nofun, List.append_nil]
    exact validBytes_congr (he.buf_eq nofun) (he.blen_eq nofun nofun)

/-- A command list without `BCLR` that leaves no fault puts its pushed bytes, in order, behind the valid bytes. -/
theorem validBytes_runWords {ws : List Word} {s t : State} (hclr : ∀ w ∈ ws, decode w ≠ .ok .bclr)
    (h : runWords ws s = .next t) (hf : t.fault = false) : validBytes t = validBytes s ++ pushedBytes ws := by
  induction ws generalizing s with
  | nil =>
    cases h
    simp [pushedBytes]
  | cons w ws ih =>
    obtain ⟨hw, hws⟩ := List.forall_mem_cons.mp hclr
    obtain ⟨u, hu, hrest⟩ := runWords_cons_next h
    calc validBytes t = validBytes u ++ pushedBytes ws := ih hws hrest
      _ = validBytes s ++ pushedBytes [w] ++ pushedBytes ws := by
        rw [validBytes_runWord hw hu (fault_false_of_runWords hrest hf)]
      _ = validBytes s ++ pushedBytes (w :: ws) := by rw [pushedBytes_cons w ws, List.append_assoc]

/-- The word of a command runs as the command. -/
theorem runWord_encode (i : Instr) {s : State} (hi : s.phase = .idle) : runWord (encode i) s = exec i s :=
  runWord_of_decode hi (decodeEncodeRoundTrip i)

/-- Pushes that fit all succeed. -/
theorem runWords_pushes {s : State} (ds : List Byte) (hr : Ready s)
    (hfit : s.blen.toNat + ds.length ≤ Config.hw.bufCap) :
    ∃ t, runWords (ds.map fun d => encode (.bpush d)) s = .next t ∧ t.fault = false ∧
      validBytes t = validBytes s ++ ds := by
  induction ds generalizing s with
  | nil => exact ⟨s, rfl, hr.2, (List.append_nil _).symm⟩
  | cons d ds ih =>
    rw [List.length_cons] at hfit
    have hroom : s.blen.toNat < Config.hw.bufCap := by omega
    have hfirst : runWord (encode (.bpush d)) s = .next (pushed d s) :=
      (runWord_encode _ hr.1).trans (exec_bpush_of_room hr hroom)
    have hblen := pushed_blen_toNat (d := d) hroom
    obtain ⟨t, hrun, hf, hbytes⟩ := ih (s := pushed d s) hr (by omega)
    refine ⟨t, (runWords_cons hfirst).trans hrun, hf, ?_⟩
    rw [hbytes, validBytes_pushed d hroom, List.append_assoc, List.singleton_append]

/-- Pushes into an empty buffer leave exactly their bytes. -/
theorem runWords_pushes_of_empty {s : State} (ds : List Byte) (hr : Ready s) (hempty : s.blen = 0#16)
    (hfit : ds.length ≤ Config.hw.bufCap) :
    ∃ t, runWords (ds.map fun d => encode (.bpush d)) s = .next t ∧ t.fault = false ∧
      t.blen.toNat = ds.length ∧ slice t 0 ds.length = ds := by
  obtain ⟨t, hrun, hf, hbytes⟩ := runWords_pushes ds hr (by simpa [hempty] using hfit)
  rw [validBytes_of_blen_zero hempty, List.nil_append] at hbytes
  exact ⟨t, hrun, hf, blen_and_slice_of_validBytes hbytes⟩

/-! ### How a step changes `blen` -/

/-- One step changes `blen` only by a presented `rst`, `BCLR` word or `BPUSH` word. -/
theorem step_blen_cases {s t : State} (h : step s = .next t) : t.blen = s.blen ∨
    ∃ p rest, s.phase = .idle ∧ s.host = p :: rest ∧
      ((t.blen = 0#16 ∧ (p.rst = true ∨ ∃ w, p.cmd = some w ∧ decode w = .ok .bclr)) ∨
       (t.blen.toNat = s.blen.toNat + 1 ∧ p.rst = false ∧ ∃ w d, p.cmd = some w ∧ decode w = .ok (.bpush d))) := by
  by_cases hi : s.phase = .idle
  · rcases step_idle_next hi h with rfl | ⟨p, rest, u, hh, rfl, ⟨hr, rfl⟩ | ⟨-, -, rfl⟩ |
      ⟨hr, w, hw, ⟨-, rfl⟩ | ⟨-, -, rfl⟩ | ⟨-, i, hd, hrun⟩⟩⟩
    · exact .inl rfl
    · exact .inr ⟨p, rest, hi, hh, .inl ⟨rfl, .inl hr⟩⟩
    · exact .inl rfl
    · exact .inl rfl
    · exact .inl rfl
    · rcases exec_next hrun with ⟨-, ⟨-, rfl⟩ | ⟨-, he⟩⟩
      · exact .inl rfl
      · rcases he.blen_cases with hsame | ⟨rfl, hzero⟩ | ⟨d, rfl, hsucc⟩
        · exact .inl hsame
        · exact .inr ⟨p, rest, hi, hh, .inl ⟨hzero, .inr ⟨w, hw, hd⟩⟩⟩
        · exact .inr ⟨p, rest, hi, hh, .inr ⟨hsucc, hr, w, d, hw, hd⟩⟩
  · obtain ⟨bs, ht⟩ := seqStep_next (step_busy hi ▸ h)
    exact .inl (by rw [ht])

/-- Settles O31: a push appends its byte to the valid bytes, and every other word but `BCLR` leaves them; what a single step
does to `blen` is `step_blen_cases`. -/
theorem pushedSequence : Obligations.PushedSequence := by
  refine ⟨?afterBclr, fun s ds => runWords_pushes_of_empty ds, ?between, fun _ _ => step_blen_cases⟩
  case afterBclr =>
    intro s ds hr hfit
    have hclear : runWord (encode .bclr) s = .next { s with blen := 0#16 } :=
      (runWord_encode _ hr.1).trans (exec_bclr hr)
    rw [runWords_cons hclear]
    exact runWords_pushes_of_empty ds hr rfl hfit
  case between =>
    intro s t ws _ _ hclr hrun hf
    have hbytes := validBytes_runWords hclr hrun hf
    exact ⟨by simpa using congrArg List.length hbytes, hbytes⟩

end Sys2Proof.Machine
end

section
/-! PROOFS. The bit step, the byte step and the sequence function (`41_crc_engine.md` sections 1 and 2): each is linear over
XOR, and for an odd `POLY` each is a bijection. -/

namespace Sys2Proof.Machine

/-! ### The bit step -/

section
variable (poly : Byte)

/-- The bit step shifts and XORs in `POLY` where a 1 was shifted out. -/
theorem crcBit_eq_xor (a : Byte) : crcBit poly a = (a <<< 1) ^^^ (if a.getLsbD 7 then poly else 0#8) := by
  rw [crcBit]
  cases a.getLsbD 7 <;> simp

theorem crcBit_of_bit7_clear {a : Byte} (h : a.getLsbD 7 = false) : crcBit poly a = a <<< 1 := by
  rw [crcBit, h]
  rfl

@[simp] theorem crcBit_zero : crcBit poly 0#8 = 0#8 := by simp [crcBit]

theorem crcBit_xor (a b : Byte) : crcBit poly (a ^^^ b) = crcBit poly a ^^^ crcBit poly b := by
  have hpoly : (if (a ^^^ b).getLsbD 7 then poly else 0#8) =
      (if a.getLsbD 7 then poly else 0#8) ^^^ (if b.getLsbD 7 then poly else 0#8) := by
    rw [BitVec.getLsbD_xor]
    cases a.getLsbD 7 <;> cases b.getLsbD 7 <;> simp
  rw [crcBit_eq_xor, crcBit_eq_xor, crcBit_eq_xor, BitVec.shiftLeft_xor_distrib, hpoly]
  ac_rfl

theorem crcBit_toNat (a : Byte) : (crcBit poly a).toNat =
    if a.toNat / 128 % 2 = 1 then ((a.toNat <<< 1) &&& 0xFF) ^^^ poly.toNat else (a.toNat <<< 1) &&& 0xFF := by
  have hbit : a.getLsbD 7 = decide (a.toNat / 128 % 2 = 1) := by
    rw [← BitVec.testBit_toNat, Nat.testBit_eq_decide_div_mod_eq]
  have hshift : (a <<< 1).toNat = (a.toNat <<< 1) &&& 0xFF :=
    BitVec.toNat_shiftLeft.trans (Nat.and_two_pow_sub_one_eq_mod _ 8).symm
  by_cases h : a.toNat / 128 % 2 = 1
  · rw [crcBit, if_pos (hbit.trans (decide_eq_true h)), if_pos h, BitVec.toNat_xor, hshift]
  · rw [crcBit, if_neg (by rw [hbit]; simpa using h), if_neg h, hshift]

/-- For an odd `POLY` bit 0 of the result says whether a 1 was shifted out, so no byte but 0 goes to 0. -/
theorem eq_zero_of_crcBit_eq_zero {poly a : Byte} (hodd : poly.getLsbD 0 = true) (h : crcBit poly a = 0#8) :
    a = 0#8 := by
  have h7 : a.getLsbD 7 = false := by
    cases h7 : a.getLsbD 7 with
    | false => rfl
    | true =>
      rw [crcBit, if_pos h7] at h
      have h0 : (a <<< 1 ^^^ poly).getLsbD 0 = false := h ▸ rfl
      rw [BitVec.getLsbD_xor, hodd] at h0
      simp at h0
  rw [crcBit_of_bit7_clear poly h7] at h
  refine BitVec.eq_of_getLsbD_eq fun i hi => ?_
  rcases Nat.lt_or_eq_of_le (Nat.le_of_lt_succ hi) with hlt | rfl
  · have hnext : (a <<< 1).getLsbD (i + 1) = false := h ▸ BitVec.getLsbD_zero
    simpa [BitVec.getLsbD_shiftLeft, Nat.succ_lt_succ hlt, hi] using hnext
  · rw [h7, BitVec.getLsbD_zero]

/-! ### Bit steps in a row -/

theorem crcBits_succ (n : Nat) (a : Byte) : crcBits poly (n + 1) a = crcBits poly n (crcBit poly a) := rfl

@[simp] theorem crcBits_zero (n : Nat) : crcBits poly n 0#8 = 0#8 := by
  induction n with
  | zero => rfl
  | succ n ih => rw [crcBits_succ, crcBit_zero, ih]

theorem crcBits_xor (n : Nat) (a b : Byte) : crcBits poly n (a ^^^ b) = crcBits poly n a ^^^ crcBits poly n b := by
  induction n generalizing a b with
  | zero => rfl
  | succ n ih => rw [crcBits_succ, crcBit_xor, ih, crcBits_succ, crcBits_succ]

theorem crcBits_add (m n : Nat) (a : Byte) : crcBits poly (m + n) a = crcBits poly n (crcBits poly m a) := by
  induction m generalizing a with
  | zero => rw [Nat.zero_add]; rfl
  | succ m ih => rw [Nat.succ_add, crcBits_succ, ih, crcBits_succ]

theorem eq_zero_of_crcBits_eq_zero {poly : Byte} (hodd : poly.getLsbD 0 = true) {n : Nat} {a : Byte}
    (h : crcBits poly n a = 0#8) : a = 0#8 := by
  induction n generalizing a with
  | zero => exact h
  | succ n ih => exact eq_zero_of_crcBit_eq_zero hodd (ih h)

theorem crcBits_injective {poly : Byte} (hodd : poly.getLsbD 0 = true) (n : Nat) :
    Function.Injective (crcBits poly n) := fun a b hab => by
  have hdiff : crcBits poly n (a ^^^ b) = 0#8 := by rw [crcBits_xor, hab, BitVec.xor_self]
  exact BitVec.xor_eq_zero_iff.mp (eq_zero_of_crcBits_eq_zero hodd hdiff)

/-- While only zeros are shifted out, `n` bit steps are a shift by `n`. -/
theorem crcBits_eq_shiftLeft {n : Nat} {a : Byte} (h : a.toNat * 2 ^ n < 256) : crcBits poly n a = a <<< n := by
  induction n generalizing a with
  | zero => exact (BitVec.shiftLeft_zero a).symm
  | succ n ih =>
    have hdouble : a.toNat * 2 * 2 ^ n < 256 := by rwa [Nat.pow_succ', ← Nat.mul_assoc] at h
    have hsmall : a.toNat * 2 < 256 := (Nat.le_mul_of_pos_right _ (Nat.two_pow_pos n)).trans_lt hdouble
    have hbit7 : a.getLsbD 7 = false := Nat.testBit_lt_two_pow (by omega)
    have hnat : (a <<< 1).toNat = a.toNat * 2 := by
      rw [BitVec.toNat_shiftLeft, Nat.shiftLeft_eq, Nat.mod_eq_of_lt (by omega)]
    rw [crcBits_succ, crcBit_of_bit7_clear poly hbit7, ih (hnat ▸ hdouble), Nat.add_comm, BitVec.shiftLeft_add]

/-- Bit steps give back a byte that was shifted right, but for the bits it lost. -/
theorem crcBits_ushiftRight (n : Nat) (a : Byte) : crcBits poly n (a >>> n) = (a >>> n) <<< n := by
  refine crcBits_eq_shiftLeft poly ?_
  rw [BitVec.toNat_ushiftRight, Nat.shiftRight_eq_div_pow]
  exact (Nat.div_mul_le_self _ _).trans_lt a.isLt

/-! ### The byte step -/

theorem crcByte_eq (a d : Byte) : crcByte poly a d = crcBits poly 8 (a ^^^ d) := rfl

theorem crcByte_eq_from_zero (a d : Byte) : crcByte poly a d = crcByte poly 0#8 (a ^^^ d) := by
  rw [crcByte_eq, crcByte_eq, BitVec.zero_xor]

@[simp] theorem crcByte_self (a : Byte) : crcByte poly a a = 0#8 := by
  rw [crcByte_eq, BitVec.xor_self, crcBits_zero]

theorem crcByte_xor (a b d e : Byte) :
    crcByte poly (a ^^^ b) (d ^^^ e) = crcByte poly a d ^^^ crcByte poly b e := by
  rw [crcByte_eq, crcByte_eq, crcByte_eq, ← crcBits_xor]
  congr 1
  ac_rfl

theorem crcByte_xor_acc (a b d : Byte) : crcByte poly (a ^^^ b) d = crcByte poly a d ^^^ crcBits poly 8 b := by
  rw [crcByte_eq, crcByte_eq, ← crcBits_xor]
  congr 1
  ac_rfl

theorem crcByte_xor_data (a d e : Byte) : crcByte poly a (d ^^^ e) = crcByte poly a d ^^^ crcBits poly 8 e := by
  rw [crcByte_eq, crcByte_eq, ← crcBits_xor, BitVec.xor_assoc]

/-! ### The sequence function -/

theorem crcSeq_cons (a d : Byte) (s : List Byte) : crcSeq poly a (d :: s) = crcSeq poly (crcByte poly a d) s := rfl

theorem crcSeq_eq_foldl (a : Byte) (s : List Byte) : crcSeq poly a s = s.foldl (crcByte poly) a := by
  induction s generalizing a with
  | nil => rfl
  | cons d s ih => exact ih _

theorem crcSeq_append (a : Byte) (s t : List Byte) : crcSeq poly a (s ++ t) = crcSeq poly (crcSeq poly a s) t := by
  rw [crcSeq_eq_foldl, List.foldl_append, ← crcSeq_eq_foldl, ← crcSeq_eq_foldl]

@[simp] theorem crcSeq_replicate_zero (n : Nat) : crcSeq poly 0#8 (List.replicate n 0#8) = 0#8 := by
  induction n with
  | zero => rfl
  | succ n ih => rw [List.replicate_succ, crcSeq_cons, crcByte_self, ih]

theorem crcSeq_xorSeq (a b : Byte) {s t : List Byte} (hlen : s.length = t.length) :
    crcSeq poly (a ^^^ b) (xorSeq s t) = crcSeq poly a s ^^^ crcSeq poly b t := by
  induction s generalizing a b t with
  | nil =>
    obtain rfl := List.length_eq_zero_iff.mp hlen.symm
    rfl
  | cons d s ih =>
    obtain _ | ⟨e, t⟩ := t
    · cases hlen
    · exact (congrArg (crcSeq poly · _) (crcByte_xor poly a b d e)).trans (ih _ _ (Nat.succ.inj hlen))

/-- A difference in the accumulator goes through one byte step per byte that follows, whatever the bytes. -/
theorem crcSeq_xor_acc (a b : Byte) (s : List Byte) :
    crcSeq poly (a ^^^ b) s = crcSeq poly a s ^^^ crcBits poly (8 * s.length) b := by
  induction s generalizing a b with
  | nil => rfl
  | cons d s ih =>
    rw [crcSeq_cons, crcByte_xor_acc, ih, ← crcBits_add, crcSeq_cons, List.length_cons, Nat.mul_succ, Nat.add_comm]

end

/-! ### The obligations about the functions -/

/-- Settles O33: the bit step in integers is `crcBit_toNat`. -/
theorem crcBitStep : Obligations.CrcBitStep := ⟨crcBit_toNat, by decide, by decide, by decide, by decide, by decide⟩

/-- Settles O34: the byte step is defined by eight bit steps. -/
theorem crcByteStep : Obligations.CrcByteStep := ⟨fun _ _ _ => rfl, by decide⟩

/-- Settles O35: both equations are those of the definition, and the other forms are those of a left fold. -/
theorem crcSeqIsLeftFold : Obligations.CrcSeqIsLeftFold := fun poly a d s t =>
  ⟨rfl, rfl, crcSeq_append poly a s [d], crcSeq_append poly a s t, crcSeq_eq_foldl poly a s⟩

/-- Settles O37: the functions are linear over XOR, and for an odd `POLY` injective on the finite set of bytes. -/
theorem crcLaws : Obligations.CrcLaws := by
  refine ⟨fun poly a b _ _ => crcSeq_xorSeq poly a b, crcByte_eq_from_zero, fun poly n s => ⟨?leading, ?zeros⟩,
    by decide +kernel, by decide +kernel, fun poly s => ?residue, fun poly hodd => ⟨?bit, fun d => ?byte⟩⟩
  case leading => rw [crcSeq_append, crcSeq_replicate_zero]
  case zeros => exact crcSeq_replicate_zero poly n
  case residue =>
    rw [crcSeq_append]
    exact crcByte_self poly _
  case bit => exact Finite.injective_iff_bijective.mp (crcBits_injective hodd 1)
  case byte =>
    refine Finite.injective_iff_bijective.mp fun a b hab => ?_
    exact (BitVec.xor_left_inj d).mp (crcBits_injective hodd 8 hab)

/-! ### The byte table -/

/-- The listed values are the byte steps from 0x00 of 0, 1, ..., 255. -/
theorem byteTable_values : byteTableLow ++ byteTableHigh =
    (List.range 256).map fun n => (crcByte 0x31#8 0#8 (BitVec.ofNat 8 n)).toNat := by decide +kernel

theorem byteTable_eq_crcByte (d : Byte) : byteTable d = crcByte 0x31#8 0#8 d := by
  rw [byteTable, byteTable_values, List.getD_eq_getElem?_getD, List.getElem?_map, List.getElem?_range d.isLt]
  simp

/-- Settles O43: a lookup is the byte step from 0x00, which depends on `a` and `d` through `a ^ d` alone. -/
theorem byteTableReplacesBitSteps : Obligations.ByteTableReplacesBitSteps := by
  refine ⟨byteTable_eq_crcByte, ?lookup, ?permutation, by decide, by decide, by decide, by decide⟩
  case lookup =>
    intro a d
    rw [byteTable_eq_crcByte, ← crcByte_eq_from_zero]
  case permutation =>
    obtain ⟨-, -, -, -, -, -, hbijective⟩ := crcLaws
    have hsteps : byteTable = fun a => crcByte 0x31#8 a 0#8 := funext fun a => by
      rw [byteTable_eq_crcByte, crcByte_eq_from_zero _ a, BitVec.xor_zero]
    exact hsteps ▸ (hbijective 0x31#8 (by decide)).2 0#8

end Sys2Proof.Machine
end

section
/-! PROOFS. The commands `CINIT`, `CBYTE` and `CRC` (`41_crc_engine.md` sections 3 to 6): what they leave, and that absorbing
bytes one by one gives the CRC of a sub-range that holds them. -/

namespace Sys2Proof.Machine

/-! ### What each command leaves -/

section
variable {s : State} (hr : Ready s)
include hr

theorem exec_cinit : exec .cinit s = .next { s with acc := 0x00#8 } := command_ready hr _

theorem exec_cbyte (d : Byte) : exec (.cbyte d) s = .next { s with acc := crcByte 0x31#8 s.acc d } :=
  command_ready hr _

/-- `CRC` of a valid sub-range writes `acc` alone (`41_crc_engine.md` R70). -/
theorem exec_crc_of_valid (hfit : Fits s) {off : Half} {len : Byte} (hv : off.toNat + len.toNat ≤ s.blen.toNat) :
    exec (.crc off len) s = .next { s with acc := crcSeq 0x31#8 0x00#8 (slice s off.toNat len.toNat) } := by
  rw [← computeCrc_hw]
  exact (command_ready hr _).trans (withRange_valid hfit hv)

end

/-- Sub-ranges of one length that hold the same bytes are the same sequence, wherever they lie. -/
theorem slice_eq_of_bytes {s t : State} {a b n : Nat} (h : ∀ i, i < n → bufByte s (a + i) = bufByte t (b + i)) :
    slice s a n = slice t b n :=
  List.map_congr_left fun i hi => h i (List.mem_range.mp hi)

theorem slice_eq_replicate_zero {s : State} {a n : Nat} (h : ∀ i, i < n → bufByte s (a + i) = 0x00#8) :
    slice s a n = List.replicate n 0x00#8 :=
  List.eq_replicate_iff.mpr ⟨slice_length s a n, List.forall_mem_map.mpr fun i hi => h i (List.mem_range.mp hi)⟩

/-- Settles O21: writing the 0x00 that `acc` already holds changes nothing. -/
theorem cinitResult : Obligations.CinitResult :=
  ⟨rfl, fun _ => exec_cinit, fun s hr hacc => by rw [exec_cinit hr, ← hacc]⟩

/-- Settles O22: a byte equal to `acc` cancels it, and the byte steps of 0x00 give 0x00. -/
theorem cbyteResult : Obligations.CbyteResult := by
  refine ⟨fun _ => rfl, fun s d hr => exec_cbyte hr d, ?zero, ?cancel, by decide +kernel, by decide +kernel⟩
  case zero =>
    intro s hr hacc
    rw [exec_cbyte hr, hacc, crcByte_self, ← hacc]
  case cancel =>
    intro s hr
    rw [exec_cbyte hr, crcByte_self]

/-- Settles O23: the CRC of the sub-range's bytes, which is 0x00 where there are none or all are zero. -/
theorem crcResult : Obligations.CrcResult := by
  refine ⟨fun _ _ => rfl, fun s off len hr hfit hv => exec_crc_of_valid hr hfit hv, ?invalid, ?empty, ?zeros, rfl,
    by decide +kernel, by decide +kernel⟩
  case invalid => exact fun s off len hr hv => exec_of_invalid_range hr hv List.mem_cons_self
  case empty => exact fun s off hr hfit hv => exec_crc_of_valid hr hfit (len := 0#8) hv
  case zeros =>
    intro s off len hr hfit hv hzero
    rw [exec_crc_of_valid hr hfit hv, slice_eq_replicate_zero hzero, crcSeq_replicate_zero]

/-- Settles O36: equal bytes are equal sub-ranges. -/
theorem crcDependsOnBytesOnly : Obligations.CrcDependsOnBytesOnly := by
  intro s t off off' len hrs hrt hfs hft hvs hvt hbytes
  exact ⟨_, _, exec_crc_of_valid hrs hfs hvs, exec_crc_of_valid hrt hft hvt,
    congrArg (crcSeq 0x31#8 0x00#8) (slice_eq_of_bytes hbytes)⟩

/-! ### Bytes absorbed one by one -/

/-- One `CBYTE` per byte takes `acc` through the sequence function and changes nothing else. -/
theorem runWords_cbytes {s : State} (hr : Ready s) (ds : List Byte) :
    runWords (ds.map fun d => encode (.cbyte d)) s = .next { s with acc := crcSeq 0x31#8 s.acc ds } := by
  induction ds generalizing s with
  | nil => rfl
  | cons d ds ih =>
    have hfirst := (runWord_encode (.cbyte d) hr.1).trans (exec_cbyte hr d)
    exact (runWords_cons hfirst).trans (ih hr)

theorem runWords_cinit_cons {s : State} (hr : Ready s) (ws : List Word) :
    runWords (encode .cinit :: ws) s = runWords ws { s with acc := 0x00#8 } :=
  runWords_cons ((runWord_encode .cinit hr.1).trans (exec_cinit hr))

/-- `CINIT` and one `CBYTE` per byte leave the bytes' CRC, whatever `acc` was. -/
theorem runWords_cinit_cbytes {s : State} (hr : Ready s) (ds : List Byte) :
    runWords (encode .cinit :: ds.map fun d => encode (.cbyte d)) s =
      .next { s with acc := crcSeq 0x31#8 0x00#8 ds } :=
  (runWords_cinit_cons hr _).trans (runWords_cbytes (s := { s with acc := 0x00#8 }) hr ds)

theorem absorbedBytes_cons (w : Word) (ws : List Word) : absorbedBytes (w :: ws) = absorbedBytes [w] ++ absorbedBytes ws :=
  List.filterMap_append (l := [w])

theorem absorbedBytes_cbyte {w : Word} {d : Byte} (hd : decode w = .ok (.cbyte d)) : absorbedBytes [w] = [d] := by
  simp [absorbedBytes, hd]

theorem absorbedBytes_other {w : Word} {i : Instr} (hd : decode w = .ok i) (hi : ∀ d, i ≠ .cbyte d) :
    absorbedBytes [w] = [] := by
  cases i with
  | cbyte d => exact absurd rfl (hi d)
  | bclr | bpush | cinit | crc | enc | frame => simp [absorbedBytes, hd]

/-- A word that leaves no fault and is none of `CINIT`, `CRC`, `FRAME` absorbs its `CBYTE` byte, if it has one
(`10_state.md` R11). -/
theorem acc_runWord {w : Word} {s t : State} (hw : StreamsOn w) (h : runWord w s = .next t) (hf : t.fault = false) :
    t.acc = crcSeq 0x31#8 s.acc (absorbedBytes [w]) := by
  obtain ⟨hcinit, hcrc, hframe⟩ := hw
  obtain ⟨-, i, hd, he⟩ := runWord_effect h hf
  cases i with
  | cinit => exact absurd hd hcinit
  | crc off len => exact absurd hd (hcrc off len)
  | frame off len => exact absurd hd (hframe off len)
  | cbyte d =>
    rw [absorbedBytes_cbyte hd]
    obtain rfl := he
    rfl
  | bclr =>
    rw [absorbedBytes_other hd nofun]
    obtain rfl := he
    rfl
  | bpush | enc =>
    rw [absorbedBytes_other hd nofun]
    rcases he with ⟨-, rfl⟩ | ⟨-, rfl⟩ <;> rfl

/-- A command list of such words absorbs its `CBYTE` bytes in order. -/
theorem acc_runWords {ws : List Word} {s t : State} (hws : ∀ w ∈ ws, StreamsOn w) (h : runWords ws s = .next t)
    (hf : t.fault = false) : t.acc = crcSeq 0x31#8 s.acc (absorbedBytes ws) := by
  induction ws generalizing s with
  | nil =>
    cases h
    rfl
  | cons w ws ih =>
    obtain ⟨hw, hrest⟩ := List.forall_mem_cons.mp hws
    obtain ⟨u, hu, hrun⟩ := runWords_cons_next h
    rw [ih hrest hrun, acc_runWord hw hu (fault_false_of_runWords hrun hf), ← crcSeq_append, ← absorbedBytes_cons]

/-- Settles O32: the words after `CINIT` take `acc` from 0x00 through the sequence function, as `CRC` does at once. -/
theorem streamingEqualsRange : Obligations.StreamingEqualsRange := by
  refine ⟨fun s ds hr => runWords_cinit_cbytes hr ds, fun s off len hr hfit hv => ?range, fun s t ws hr hws hrun hf => ?between⟩
  case range => rw [runWords_cinit_cbytes hr, exec_crc_of_valid hr hfit hv]
  case between =>
    rw [runWords_cinit_cons hr] at hrun
    have hacc := acc_runWords hws hrun hf
    refine ⟨hacc, fun v off len hrv hfv hv hbytes => ?_⟩
    rw [exec_crc_of_valid hrv hfv hv, hbytes, hacc]

end Sys2Proof.Machine
end

section
/-! PROOFS. Error detection (`41_crc_engine.md` R74, `90_conflicts.md` C6): an error pattern shows in the CRC as the bit steps of
its bits from their place to the end of the sequence. -/

namespace Sys2Proof.Machine

/-! ### Errors in one byte, in one bit, in eight consecutive bits -/

theorem shiftLeft_ushiftRight_shiftLeft (b : Byte) (n : Nat) : b <<< n >>> n <<< n = b <<< n := by
  ext i hi
  by_cases hin : i < n
  · simp [hin]
  · have hsum : n + (i - n) = i := by omega
    simp [hin, hi, hsum]

/-- A byte is its bits from `r` on and its bits below `r`. -/
theorem eq_high_xor_low (b : Byte) {r : Nat} (hr : r ≤ 8) : b = b >>> r <<< r ^^^ b <<< (8 - r) >>> (8 - r) := by
  ext i hi
  by_cases hir : i < r
  · have hbelow : 8 - r + i < 8 := by omega
    simp [hir, hbelow]
  · have habove : ¬ 8 - r + i < 8 := by omega
    have hsum : r + (i - r) = i := by omega
    simp [hir, habove, hi, hsum]

section
variable (poly a : Byte)

/-- XORing `e` into byte `i` changes the CRC by the bit steps of `e` from there on; with `e = 0x00` there need be no byte `i`. -/
theorem crcSeq_modify_xor {s : List Byte} {i : Nat} {e : Byte} (h : i < s.length ∨ e = 0x00#8) :
    crcSeq poly a (s.modify i (· ^^^ e)) = crcSeq poly a s ^^^ crcBits poly (8 * (s.length - i)) e := by
  induction s generalizing a i with
  | nil =>
    obtain rfl := h.resolve_left (Nat.not_lt_zero _)
    simp
  | cons d s ih =>
    cases i with
    | zero =>
      rw [List.modify_zero_cons, crcSeq_cons, crcByte_xor_data, crcSeq_xor_acc, ← crcBits_add, crcSeq_cons,
        Nat.sub_zero, List.length_cons, Nat.mul_succ, Nat.add_comm]
    | succ i =>
      rw [List.modify_succ_cons, crcSeq_cons, ih _ (h.imp_left Nat.lt_of_succ_lt_succ), List.length_cons,
        Nat.succ_sub_succ, crcSeq_cons]

/-- A flipped bit shows as the bit steps that follow it. -/
theorem crcSeq_flipBit {s : List Byte} {k : Nat} (hk : k < 8 * s.length) :
    crcSeq poly a (flipBit s k) = crcSeq poly a s ^^^ crcBits poly (8 * s.length - k) 0x80#8 := by
  have hbit : crcBits poly (k % 8) (0x80#8 >>> (k % 8)) = 0x80#8 := by
    rw [crcBits_ushiftRight]
    have hshift : ∀ r, r < 8 → (0x80#8 >>> r) <<< r = 0x80#8 := by decide
    exact hshift _ (Nat.mod_lt _ (by decide))
  have hsteps : 8 * (s.length - k / 8) = k % 8 + (8 * s.length - k) := by omega
  rw [flipBit, crcSeq_modify_xor poly a (.inl (by omega)), hsteps, crcBits_add, hbit]

/-- A burst's first part, eight bit steps on, and its second part together are what the whole pattern becomes in the bit steps
up to the end of the second byte. -/
theorem crcBits_split {r : Nat} (hr : r < 8) (b : Byte) :
    crcBits poly 8 (b >>> r) ^^^ (b <<< (8 - r)) = crcBits poly (8 - r) b := by
  have hsteps : 8 = r + (8 - r) := by omega
  calc crcBits poly 8 (b >>> r) ^^^ (b <<< (8 - r))
      = crcBits poly (r + (8 - r)) (b >>> r) ^^^ (b <<< (8 - r)) := by rw [← hsteps]
    _ = crcBits poly (8 - r) (b >>> r <<< r) ^^^ crcBits poly (8 - r) (b <<< (8 - r) >>> (8 - r)) := by
      rw [crcBits_add, crcBits_ushiftRight, crcBits_ushiftRight, shiftLeft_ushiftRight_shiftLeft]
    _ = crcBits poly (8 - r) b := by rw [← crcBits_xor, ← eq_high_xor_low b hr.le]

/-- A burst shows as the bit steps from its last bit on. -/
theorem crcSeq_xorBurst {s : List Byte} {k : Nat} (b : Byte) (hk : k + 8 ≤ 8 * s.length) :
    crcSeq poly a (xorBurst s k b) = crcSeq poly a s ^^^ crcBits poly (8 * s.length - k) b := by
  have hr : k % 8 < 8 := Nat.mod_lt _ (by decide)
  have hsecond : k / 8 + 1 < s.length ∨ b <<< (8 - k % 8) = 0x00#8 := by
    by_cases h : k % 8 = 0
    · exact .inr (BitVec.shiftLeft_eq_zero (by omega))
    · exact .inl (by omega)
  have hfirst : 8 * (s.length - k / 8) = 8 + 8 * (s.length - (k / 8 + 1)) := by omega
  have hsteps : 8 * s.length - k = (8 - k % 8) + 8 * (s.length - (k / 8 + 1)) := by omega
  rw [xorBurst, crcSeq_modify_xor poly a (by rwa [List.length_modify]), List.length_modify,
    crcSeq_modify_xor poly a (.inl (by omega)), BitVec.xor_assoc, hfirst, crcBits_add, ← crcBits_xor,
    crcBits_split poly hr, ← crcBits_add, hsteps]

end

theorem flipBit_length (s : List Byte) (k : Nat) : (flipBit s k).length = s.length := List.length_modify ..

/-! ### Patterns that an odd `POLY` detects -/

/-- A change by the bit steps of a byte other than 0x00 is a change. -/
theorem xor_crcBits_ne {poly b : Byte} (hodd : poly.getLsbD 0 = true) (hb : b ≠ 0x00#8) (n : Nat) (c : Byte) :
    c ^^^ crcBits poly n b ≠ c := fun h =>
  hb (eq_zero_of_crcBits_eq_zero hodd ((BitVec.xor_right_inj c).mp (h.trans BitVec.xor_zero.symm)))

/-- Settles O39: a flipped bit shows as the bit steps of 0x80. -/
theorem singleBitFlipChangesCrc : Obligations.SingleBitFlipChangesCrc := by
  intro poly s k hodd hk
  rw [crcSeq_flipBit poly _ hk]
  exact xor_crcBits_ne hodd (by decide) _ _

/-- Settles O42: a burst shows as the bit steps of its pattern. -/
theorem burstErrorChangesCrc : Obligations.BurstErrorChangesCrc := by
  intro s k b hb hk
  rw [crcSeq_xorBurst _ _ b hk]
  exact xor_crcBits_ne (by decide) hb _ _

/-! ### Two bits -/

/-- For `POLY = 0x31` the bit steps from 0x80 do not return to it before the 127th. -/
theorem crcBits_msb_ne_self {d : Nat} (hpos : 0 < d) (hlt : d < 127) : crcBits 0x31#8 d 0x80#8 ≠ 0x80#8 := by
  have hall : ∀ d < 127, 0 < d → crcBits 0x31#8 d 0x80#8 ≠ 0x80#8 := by decide +kernel
  exact hall d hlt hpos

/-- Settles O40: at the second flipped bit the first has become another byte than 0x80, so the two do not cancel there. -/
theorem twoBitErrorChangesCrc : Obligations.TwoBitErrorChangesCrc := by
  intro s j k hjk hk hdist
  have hsteps : 8 * s.length - j = (k - j) + (8 * s.length - k) := by omega
  rw [crcSeq_flipBit _ _ (by rwa [flipBit_length]), flipBit_length, crcSeq_flipBit _ _ (hjk.trans hk), BitVec.xor_assoc,
    hsteps, crcBits_add, ← crcBits_xor]
  refine xor_crcBits_ne (by decide) (fun h => ?_) _ _
  exact crcBits_msb_ne_self (Nat.sub_pos_of_lt hjk) hdist (BitVec.xor_eq_zero_iff.mp h)

/-! ### An odd number of bits -/

theorem countP_xor_mod_two {α : Type} (p q : α → Bool) (l : List α) :
    (l.countP fun i => p i ^^ q i) % 2 = (l.countP p + l.countP q) % 2 := by
  induction l with
  | nil => rfl
  | cons i l ih =>
    rw [List.countP_cons, List.countP_cons, List.countP_cons]
    cases p i <;> cases q i <;> simp <;> omega

theorem byteWeight_xor (a b : Byte) : byteWeight (a ^^^ b) % 2 = (byteWeight a + byteWeight b) % 2 := by
  simp only [byteWeight, BitVec.getLsbD_xor]
  exact countP_xor_mod_two _ _ _

/-- A shift to the left loses bit 7. -/
theorem byteWeight_shiftLeft (a : Byte) : byteWeight a = byteWeight (a <<< 1) + if a.getLsbD 7 then 1 else 0 := by
  have hshift : ∀ i ∈ List.range 7, (a <<< 1).getLsbD (i + 1) = true ↔ a.getLsbD i = true := fun i hi => by
    rw [BitVec.getLsbD_shiftLeft, decide_eq_true (Nat.succ_lt_succ (List.mem_range.mp hi))]
    simp
  have hlow : byteWeight (a <<< 1) = (List.range 7).countP fun i => a.getLsbD i := by
    rw [byteWeight, List.range_succ_eq_map, List.countP_cons_of_neg (by simp), List.countP_map]
    exact List.countP_congr hshift
  rw [hlow, byteWeight, List.range_succ, List.countP_append, List.countP_singleton]

section
variable {poly : Byte} (hpoly : byteWeight poly % 2 = 1)
include hpoly

/-- Where a bit step shifts a 1 out, `POLY` brings an odd number of them in. -/
theorem byteWeight_crcBit (a : Byte) : byteWeight (crcBit poly a) % 2 = byteWeight a % 2 := by
  have hxor := byteWeight_xor (a <<< 1) poly
  have hshift := byteWeight_shiftLeft a
  rw [crcBit]
  cases h7 : a.getLsbD 7 <;> simp only [h7, if_true, Bool.false_eq_true, if_false] at hshift ⊢ <;> omega

theorem byteWeight_crcBits (n : Nat) (a : Byte) : byteWeight (crcBits poly n a) % 2 = byteWeight a % 2 := by
  induction n generalizing a with
  | zero => rfl
  | succ n ih => rw [crcBits_succ, ih, byteWeight_crcBit hpoly]

/-- The CRC keeps the parity of the number of 1 bits. -/
theorem byteWeight_crcSeq (a : Byte) (s : List Byte) :
    byteWeight (crcSeq poly a s) % 2 = (byteWeight a + seqWeight s) % 2 := by
  induction s generalizing a with
  | nil => rfl
  | cons d s ih =>
    have hstep : byteWeight (crcByte poly a d) % 2 = (byteWeight a + byteWeight d) % 2 := by
      rw [crcByte_eq, byteWeight_crcBits hpoly, byteWeight_xor]
    have hweight : seqWeight (d :: s) = byteWeight d + seqWeight s := List.sum_cons
    rw [crcSeq_cons, ih, hweight]
    omega

end

/-- Settles O41: `POLY` has three 1 bits, so the CRC of the error pattern has an odd number of 1 bits, so it is not 0x00. -/
theorem oddErrorChangesCrc : Obligations.OddErrorChangesCrc := by
  intro s e hlen hodd h
  have hsum : crcSeq 0x31#8 0x00#8 (xorSeq s e) = crcSeq 0x31#8 0x00#8 s ^^^ crcSeq 0x31#8 0x00#8 e :=
    crcSeq_xorSeq 0x31#8 0x00#8 0x00#8 hlen
  have hzero : crcSeq 0x31#8 0x00#8 e = 0x00#8 :=
    (BitVec.xor_right_inj _).mp ((hsum.symm.trans h).trans BitVec.xor_zero.symm)
  have hparity := byteWeight_crcSeq (poly := 0x31#8) (by decide) 0x00#8 e
  rw [hzero] at hparity
  have hweight : byteWeight 0x00#8 = 0 := rfl
  omega

end Sys2Proof.Machine
end

section
/-! PROOFS. The CRC as a remainder (`41_crc_engine.md` R66). Modulo G(x) a bit step is multiplication by x: it shifts, and it
takes x^8 away by XORing in `POLY`. -/

namespace Sys2Proof.Gf2

open Sys2Proof.Machine Polynomial

/-! ### Bytes as polynomials -/

theorem bytePoly_xor (a b : Byte) : bytePoly (a ^^^ b) = bytePoly a + bytePoly b := by
  rw [bytePoly, bytePoly, bytePoly, ← Finset.sum_add_distrib]
  refine Finset.sum_congr rfl fun i _ => ?_
  rw [BitVec.getLsbD_xor]
  cases a.getLsbD i <;> cases b.getLsbD i <;> simp [CharTwo.add_self_eq_zero]

@[simp] theorem bytePoly_zero : bytePoly 0#8 = 0 := by simp [bytePoly]

theorem bytePoly_degree_lt (b : Byte) : (bytePoly b).degree < (8 : ℕ) := by
  refine mem_degreeLT.mp (Submodule.sum_mem _ fun i hi => ?_)
  cases b.getLsbD i with
  | false => exact Submodule.zero_mem _
  | true => simpa [mem_degreeLT, degree_X_pow] using hi

theorem generatorPoly_monic (poly : Byte) : (generatorPoly poly).Monic := monic_X_pow_add (bytePoly_degree_lt poly)

theorem generatorPoly_degree (poly : Byte) : (generatorPoly poly).degree = (8 : ℕ) := by
  have hlead : (bytePoly poly).degree < (X ^ 8 : (ZMod 2)[X]).degree := by
    rw [degree_X_pow]
    exact bytePoly_degree_lt poly
  rw [generatorPoly, degree_add_eq_left_of_degree_lt hlead, degree_X_pow]

/-- Multiplication by x shifts a byte left; bit 7 becomes the coefficient of x^8. -/
theorem X_mul_bytePoly (a : Byte) : X * bytePoly a = bytePoly (a <<< 1) + if a.getLsbD 7 then X ^ 8 else 0 := by
  have hterm : ∀ i, X * (if a.getLsbD i then X ^ i else 0 : (ZMod 2)[X]) = if a.getLsbD i then X ^ (i + 1) else 0 :=
    fun i => by rw [mul_ite, mul_zero, ← pow_succ']
  have hshift : ∀ i ∈ Finset.range 7, (a <<< 1).getLsbD (i + 1) = a.getLsbD i := fun i hi => by
    rw [BitVec.getLsbD_shiftLeft, decide_eq_true (Nat.succ_lt_succ (Finset.mem_range.mp hi))]
    simp
  have hlow : bytePoly (a <<< 1) = ∑ i ∈ Finset.range 7, if a.getLsbD i then X ^ (i + 1) else 0 := by
    rw [bytePoly, Finset.sum_range_succ' _ 7, Finset.sum_congr rfl fun i hi => by rw [hshift i hi]]
    simp
  rw [hlow, bytePoly, Finset.mul_sum, Finset.sum_congr rfl fun i _ => hterm i, Finset.sum_range_succ]

/-- A bit step is multiplication by x, less the generator where a 1 is shifted out. -/
theorem X_mul_bytePoly_eq_crcBit (poly a : Byte) :
    X * bytePoly a = bytePoly (crcBit poly a) + if a.getLsbD 7 then generatorPoly poly else 0 := by
  rw [X_mul_bytePoly, crcBit_eq_xor, bytePoly_xor]
  cases a.getLsbD 7
  · simp
  · rw [if_pos rfl, if_pos rfl, if_pos rfl, generatorPoly, add_assoc, add_left_comm (bytePoly poly),
      CharTwo.add_self_eq_zero, add_zero]

/-! ### Modulo the generator -/

/-- The residue class of a polynomial modulo G(x). -/
noncomputable def residue (poly : Byte) : (ZMod 2)[X] →+* AdjoinRoot (generatorPoly poly) :=
  AdjoinRoot.mk (generatorPoly poly)

section
variable (poly : Byte)

theorem residue_crcBit (a : Byte) : residue poly (bytePoly (crcBit poly a)) = residue poly (X * bytePoly a) := by
  have hgen : residue poly (generatorPoly poly) = 0 := AdjoinRoot.mk_self
  rw [X_mul_bytePoly_eq_crcBit poly, map_add]
  cases a.getLsbD 7 <;> simp [hgen]

theorem residue_crcBits (n : Nat) (a : Byte) :
    residue poly (bytePoly (crcBits poly n a)) = residue poly (X ^ n * bytePoly a) := by
  induction n generalizing a with
  | zero => rw [pow_zero, one_mul]; rfl
  | succ n ih => rw [crcBits_succ, ih, map_mul, residue_crcBit, ← map_mul, ← mul_assoc, ← pow_succ]

/-- A byte step adds the byte and multiplies by x^8, so a sequence shifts the accumulator and adds the message. -/
theorem residue_crcSeq (a : Byte) (s : List Byte) : residue poly (bytePoly (crcSeq poly a s)) =
    residue poly (bytePoly a * X ^ (8 * s.length) + messagePoly s * X ^ 8) := by
  induction s generalizing a with
  | nil => simp [crcSeq, messagePoly]
  | cons d s ih =>
    have hbyte : residue poly (bytePoly (crcByte poly a d)) = residue poly (X ^ 8 * (bytePoly a + bytePoly d)) := by
      rw [crcByte_eq, residue_crcBits, bytePoly_xor]
    rw [crcSeq_cons, ih, map_add, map_mul, hbyte, ← map_mul, ← map_add, messagePoly, List.length_cons]
    refine congrArg (residue poly) ?_
    rw [Nat.mul_succ, pow_add]
    ring

end

end Sys2Proof.Gf2

namespace Sys2Proof.Machine

open Sys2Proof.Gf2

/-- Settles O38: the CRC is in the residue class of the shifted message, and its degree is below the generator's. -/
theorem crcIsPolynomialRemainder : Obligations.CrcIsPolynomialRemainder := by
  intro poly s
  have hclass := residue_crcSeq poly 0x00#8 s
  rw [bytePoly_zero, zero_mul, zero_add] at hclass
  have hsmall : (bytePoly (crcSeq poly 0x00#8 s)).degree < (generatorPoly poly).degree :=
    (bytePoly_degree_lt _).trans_eq (generatorPoly_degree poly).symm
  rw [← Polynomial.modByMonic_eq_of_dvd_sub (generatorPoly_monic poly) (AdjoinRoot.mk_eq_mk.mp hclass)]
  exact ((Polynomial.modByMonic_eq_self_iff (generatorPoly_monic poly)).mpr hsmall).symm

end Sys2Proof.Machine
end

section
/-! PROOFS. The frame function and the commands `ENC` and `FRAME` (`42_frame_encoder.md` sections 1 and 2): the shape of a frame,
what the two commands leave on a valid sub-range, and that a repeated `FRAME` emits the same frame again. -/

namespace Sys2Proof.Machine

/-! ### The frame function -/

theorem frameBytes_eq (c : Config) (len : Byte) (p : List Byte) (crc : Byte) :
    frameBytes c len p crc = c.sof :: len :: (p ++ [crc, c.eof]) := rfl

@[simp] theorem frameBytes_length (c : Config) (len : Byte) (p : List Byte) (crc : Byte) :
    (frameBytes c len p crc).length = p.length + 4 := by
  simp [frameBytes_eq]

/-- The frame function answers up to 255 bytes, where the length byte is exact. -/
theorem frame_eq_some_iff {c : Config} {p f : List Byte} {crc : Byte} :
    frame c p crc = some f ↔ p.length ≤ 255 ∧ frameBytes c (BitVec.ofNat 8 p.length) p crc = f := by
  simp [frame]

theorem toNat_ofNat_length {p : List Byte} (hp : p.length ≤ 255) : (BitVec.ofNat 8 p.length).toNat = p.length :=
  (BitVec.toNat_ofNat _ _).trans (Nat.mod_eq_of_lt (Nat.lt_succ_of_le hp))

/-- Settles O44: the function is defined by this test of the payload's length. -/
theorem frameFunction : Obligations.FrameFunction :=
  ⟨fun _ _ hp => ⟨if_pos hp, toNat_ofNat_length hp⟩, fun _ _ hp => if_neg (Nat.not_le.mpr hp)⟩

/-- Settles O45: behind the two header bytes the payload, and behind that the two closing bytes. -/
theorem frameShape : Obligations.FrameShape := by
  intro p f c hf
  obtain ⟨hp, rfl⟩ := frame_eq_some_iff.mp hf
  refine ⟨frameBytes_length _ _ _ _, rfl, congrArg some (toNat_ofNat_length hp), fun i hi => ?payload, ?crc, ?eof⟩
  case payload =>
    rw [frameBytes_eq, Nat.add_comm]
    exact List.getElem?_append_left hi
  case crc => simp [frameBytes_eq]
  case eof => simp [frameBytes_eq, Config.hw]

/-! ### What the commands leave on a valid sub-range -/

section
variable {s : State} (hr : Ready s) (hfit : Fits s) {off : Half} {len : Byte} (hv : off.toNat + len.toNat ≤ s.blen.toNat)
include hr hfit hv

/-- `ENC` of a valid sub-range emits its frame with `acc` as it is (`42_frame_encoder.md` R79). -/
theorem exec_enc_of_valid :
    exec (.enc off len) s = .next (emitFrame Config.hw off len (slice s off.toNat len.toNat) s) :=
  (command_ready hr _).trans (withRange_valid hfit hv)

/-- `FRAME` of a valid sub-range writes its CRC to `acc` and emits its frame with it (`42_frame_encoder.md` R82). -/
theorem exec_frame_of_valid :
    exec (.frame off len) s = .next (emitFrame Config.hw off len (slice s off.toNat len.toNat)
      { s with acc := crcSeq 0x31#8 0x00#8 (slice s off.toNat len.toNat) }) := by
  rw [← computeCrc_hw]
  exact (command_ready hr _).trans (withRange_valid hfit hv)

end

/-- The frame of a sub-range has its `len` bytes and four more. -/
theorem frameBytes_slice_length (c : Config) (s : State) (off : Nat) (len crc : Byte) :
    (frameBytes c len (slice s off len.toNat) crc).length = len.toNat + 4 := by
  simp

/-- Settles O24: the second `ENC` finds the buffer and `acc` as the first did. -/
theorem encResult : Obligations.EncResult := by
  refine ⟨fun _ _ => rfl, ?valid, ?invalid⟩
  case valid =>
    intro s off len hr hfit hv
    have hagain := exec_enc_of_valid (s := emitFrame Config.hw off len (slice s off.toNat len.toNat) s) hr hfit hv
    exact ⟨_, _, exec_enc_of_valid hr hfit hv, rfl, frameBytes_slice_length Config.hw s _ _ _, frame_slice _ _ _ _ _, rfl,
      rfl, rfl, rfl, hr.2, rfl, rfl, hr.1, rfl, _, hagain, rfl⟩
  case invalid => exact fun s off len hr hv => exec_of_invalid_range hr hv (by simp)

/-- Settles O25: the empty sub-range is the valid case with no bytes. -/
theorem frameResult : Obligations.FrameResult := by
  refine ⟨fun _ _ => rfl, ?valid, ?empty, ?invalid⟩
  case valid =>
    intro s off len hr hfit hv
    exact ⟨_, _, _, exec_frame_of_valid hr hfit hv, rfl, rfl, frameBytes_slice_length Config.hw s _ _ _,
      frame_slice _ _ _ _ _, rfl, rfl, rfl, rfl, hr.2, rfl, rfl, hr.1, rfl⟩
  case empty => exact fun s off hr hfit hv => ⟨_, exec_frame_of_valid hr hfit (len := 0#8) hv, rfl, rfl⟩
  case invalid => exact fun s off len hr hv => exec_of_invalid_range hr hv (by simp)

/-- Settles O29: `CRC` leaves the bytes that `ENC` then reads; on an invalid sub-range it halts the block, which ignores the
`ENC`. -/
theorem frameIsCrcThenEnc : Obligations.FrameIsCrcThenEnc := by
  refine ⟨?valid, ?invalid⟩
  case valid =>
    intro s off len hr hfit hv
    have henc := exec_enc_of_valid (s := { s with acc := crcSeq 0x31#8 0x00#8 (slice s off.toNat len.toNat) }) hr hfit hv
    exact ⟨_, _, exec_crc_of_valid hr hfit hv, henc, exec_frame_of_valid hr hfit hv, hr.2⟩
  case invalid =>
    intro s off len hr hv
    exact ⟨_, _, _, exec_of_invalid_range hr hv (by simp), exec_halted _ hr.1 rfl, exec_of_invalid_range hr hv (by simp),
      rfl, rfl, rfl, rfl, rfl⟩

/-! ### What the commands leave as it was -/

/-- `ENC` and `FRAME` record `InvalidRange`, or emit the sub-range's frame with the CRC byte they leave in `acc`; `ENC` leaves
the one it found. -/
theorem Effect.emitting {s t : State} {i : Instr} {off : Half} {len : Byte} (he : Effect s t i)
    (hi : i = .enc off len ∨ i = .frame off len) :
    (s.blen.toNat < off.toNat + len.toNat ∧ t = raise .invalidRange (encode i) s) ∨
    (off.toNat + len.toNat ≤ s.blen.toNat ∧ ∃ crc, (i = .enc off len → crc = s.acc) ∧
      t = emitFrame Config.hw off len (slice s off.toNat len.toNat) { s with acc := crc }) := by
  rcases hi with rfl | rfl
  · exact he.imp_right (And.imp_right fun ht => ⟨s.acc, fun _ => rfl, ht⟩)
  · exact he.imp_right (And.imp_right fun ht => ⟨_, nofun, ht⟩)

/-- Settles O28: a halted block is unchanged; otherwise only the fault record, or only `acc`, `tx`, `idx` and the latches are
written. -/
theorem emittingCommandsFrame : Obligations.EmittingCommandsFrame := by
  intro i off len s t hi h
  obtain ⟨-, ⟨-, rfl⟩ | ⟨-, he⟩⟩ := exec_next h
  · simp
  rcases he.emitting hi with ⟨hout, rfl⟩ | ⟨hin, crc, hacc, rfl⟩
  · exact ⟨rfl, fun _ => rfl, rfl, rfl, rfl, fun _ => rfl, List.prefix_rfl,
      fun hvalid => absurd (validRange_iff.mp hvalid) hout.not_ge, fun _ => ⟨rfl, rfl⟩⟩
  · exact ⟨rfl, fun _ => rfl, rfl, rfl, rfl, hacc, List.prefix_append _ _, fun _ => ⟨rfl, rfl, rfl⟩,
      fun hinvalid => absurd hin (validRange_eq_false_iff.mp hinvalid).not_ge⟩

/-! ### The same frame again -/

/-- No command moves the phase. -/
theorem Effect.phase_eq {s t : State} {i : Instr} (he : Effect s t i) : t.phase = s.phase := by
  cases i with
  | bclr | cinit | cbyte =>
    obtain rfl := he
    rfl
  | bpush | crc | enc | frame => rcases he with ⟨-, rfl⟩ | ⟨-, rfl⟩ <;> rfl

/-- Words that are neither `BPUSH` nor `BCLR` and leave no fault leave `buf`, `blen` and the phase. -/
theorem runWords_leavesBuffer {ws : List Word} {s t : State} (hws : ∀ w ∈ ws, LeavesBuffer w)
    (h : runWords ws s = .next t) (hf : t.fault = false) : t.buf = s.buf ∧ t.blen = s.blen ∧ t.phase = s.phase := by
  induction ws generalizing s with
  | nil =>
    cases h
    exact ⟨rfl, rfl, rfl⟩
  | cons w ws ih =>
    obtain ⟨⟨hclr, hpush⟩, hrest⟩ := List.forall_mem_cons.mp hws
    obtain ⟨u, hu, hrun⟩ := runWords_cons_next h
    obtain ⟨-, i, hd, he⟩ := runWord_effect hu (fault_false_of_runWords hrun hf)
    have hclr' : i ≠ .bclr := fun hi => hclr (hi ▸ hd)
    have hpush' : ∀ d, i ≠ .bpush d := fun d hi => hpush d (hi ▸ hd)
    obtain ⟨hbuf, hblen, hphase⟩ := ih hrest hrun
    exact ⟨hbuf.trans (he.buf_eq hpush'), hblen.trans (he.blen_eq hclr' hpush'), hphase.trans he.phase_eq⟩

/-- `FRAME` given `k` times appends `k` copies of one frame. `acc` is that frame's CRC if it was before or if `k` is not 0. -/
theorem runWords_replicate_frame {s : State} {off : Half} {len crc : Byte} {p : List Byte} (k : Nat) (hr : Ready s)
    (hfit : Fits s) (hv : off.toNat + len.toNat ≤ s.blen.toNat) (hp : slice s off.toNat len.toNat = p)
    (hcrc : crcSeq 0x31#8 0x00#8 p = crc) :
    ∃ t, runWords (List.replicate k (encode (.frame off len))) s = .next t ∧
      t.tx = s.tx ++ (List.replicate k (frameBytes Config.hw len p crc)).flatten ∧ (s.acc = crc ∨ 0 < k → t.acc = crc) := by
  induction k generalizing s with
  | zero => exact ⟨s, rfl, by simp, by simp⟩
  | succ k ih =>
    have hfirst := (runWord_encode (.frame off len) hr.1).trans (exec_frame_of_valid hr hfit hv)
    rw [hp, hcrc] at hfirst
    obtain ⟨t, hrun, htx, hacc⟩ := ih (s := emitFrame Config.hw off len p { s with acc := crc }) hr hfit hv hp
    refine ⟨t, (runWords_cons hfirst).trans hrun, ?_, fun _ => hacc (.inl rfl)⟩
    simp [htx, List.replicate_succ]

/-- Settles O30: the frame depends on the bytes of the sub-range alone, which every word but `BPUSH` and `BCLR` leaves. -/
theorem retryInvariance : Obligations.RetryInvariance := by
  intro s off len k hr hfit hv
  obtain ⟨t, hrun, htx, hacc⟩ := runWords_replicate_frame k hr hfit hv rfl rfl
  refine ⟨t, _, _, hrun, exec_frame_of_valid hr hfit hv, rfl, htx, fun hk => hacc (.inr hk), fun ws v hws hbetween hf => ?_⟩
  obtain ⟨hbuf, hblen, hphase⟩ := runWords_leavesBuffer hws hbetween hf
  have hbytes : slice v off.toNat len.toNat = slice s off.toNat len.toNat := slice_congr hbuf _ _
  have hblen' : v.blen = s.blen := hblen
  have hagain := exec_frame_of_valid (s := v) (off := off) (len := len) ⟨hphase.trans hr.1, hf⟩
    (by rwa [Fits, hblen']) (by rwa [hblen'])
  rw [hbytes] at hagain
  exact ⟨_, hagain, rfl, rfl⟩

end Sys2Proof.Machine
end

section
/-! PROOFS. The byte-level sequencer (`42_frame_encoder.md` section 3): what one step emits, that a frame in progress emits exactly
the bytes it has left, and that from its start these are the frame of the atomic command. -/

namespace Sys2Proof.Machine

/-! ### One step, by phase -/

section
variable {s : State}

theorem step_start (hp : s.phase = .start) :
    step s = .next { s with tx := s.tx ++ [0x8D#8], phase := .len, idx := 0#8 } := by
  rw [step_busy (by simp [hp]), seqStep, hp]
  rfl

theorem step_len (hp : s.phase = .len) : step s = .next { s with
    tx := s.tx ++ [s.sLen], phase := if s.sLen = 0#8 then .crcb else .payload, idx := 0#8 } := by
  rw [step_busy (by simp [hp]), seqStep, hp]
  rfl

theorem step_len_payload (hp : s.phase = .len) (hpos : 0 < s.sLen.toNat) :
    step s = .next { s with tx := s.tx ++ [s.sLen], phase := .payload, idx := 0#8 } := by
  have hne : s.sLen ≠ 0#8 := fun h0 => hpos.ne' (congrArg BitVec.toNat h0)
  rw [step_len hp, if_neg hne]

theorem step_len_empty (hp : s.phase = .len) (h0 : s.sLen.toNat = 0) :
    step s = .next { s with tx := s.tx ++ [s.sLen], phase := .crcb, idx := 0#8 } := by
  rw [step_len hp, if_pos (BitVec.eq_of_toNat_eq h0)]

theorem step_crcb (hp : s.phase = .crcb) : step s = .next { s with tx := s.tx ++ [s.acc], phase := .endm } := by
  rw [step_busy (by simp [hp]), seqStep, hp]
  rfl

theorem step_endm (hp : s.phase = .endm) :
    step s = .next { s with tx := s.tx ++ [0x8F#8], phase := .idle, idx := 0#8 } := by
  rw [step_busy (by simp [hp]), seqStep, hp]
  rfl

end

section
variable {s : State} (hp : s.phase = .payload) (h : SeqInv s)
include hp h

/-- In a well-placed frame `idx` does not wrap: it counts up to `s_len`, which is a byte. -/
theorem SeqInv.idx_succ : (s.idx + 1#8).toNat = s.idx.toNat + 1 := by
  have hidx := h.idx_lt hp
  have hlen := s.sLen.isLt
  simp only [BitVec.toNat_add, BitVec.toNat_ofNat]
  omega

/-- In a well-placed frame the byte that is read lies below `blen`. -/
theorem SeqInv.address_lt : s.sOff.toNat + s.idx.toNat < s.blen.toNat :=
  (Nat.add_lt_add_left (h.idx_lt hp) _).trans_le h.range_le

theorem step_payload : step s = .next { s with
    tx := s.tx ++ [bufByte s (s.sOff.toNat + s.idx.toNat)]
    phase := if s.idx.toNat + 1 < s.sLen.toNat then .payload else .crcb
    idx := s.idx + 1#8 } := by
  rw [step_busy (by simp [hp]), seqStep, hp]
  simp only [memRead_ok s ((SeqInv.address_lt hp h).trans_le h.blen_le)]
  rfl

theorem step_payload_more (hmore : s.idx.toNat + 1 < s.sLen.toNat) : step s = .next { s with
    tx := s.tx ++ [bufByte s (s.sOff.toNat + s.idx.toNat)], phase := .payload, idx := s.idx + 1#8 } := by
  rw [step_payload hp h, if_pos hmore]

theorem step_payload_last (hlast : s.idx.toNat + 1 = s.sLen.toNat) : step s = .next { s with
    tx := s.tx ++ [bufByte s (s.sOff.toNat + s.idx.toNat)], phase := .crcb, idx := s.idx + 1#8 } := by
  rw [step_payload hp h, if_neg hlast.not_lt]

end

/-- Settles O46: each row of the table is the step of its phase. -/
theorem sequencerStepTable : Obligations.SequencerStepTable := fun _ =>
  ⟨step_start, step_len_payload, step_len_empty, step_payload_more, step_payload_last, step_crcb, step_endm,
    fun hp => by rw [seqStep, hp], fun hp h => ⟨SeqInv.idx_succ hp h, SeqInv.address_lt hp h⟩⟩

/-- Settles O47: a step of a busy block is the sequencer's, which writes `tx`, `phase` and `idx` alone; the precondition of
every command refuses. -/
theorem busyBlockAcceptsNoCommand : Obligations.BusyBlockAcceptsNoCommand := by
  intro s hb
  refine ⟨fun t h => ?kept, fun i => ?command, fun w => command_busy hb _, fun p => ?presented⟩
  case kept =>
    obtain ⟨bs, ht⟩ := seqStep_next (step_busy hb ▸ h)
    rw [ht]
    exact ⟨rfl, rfl, rfl, rfl, rfl, rfl, rfl, rfl, rfl⟩
  case command => cases i <;> exact command_busy hb _
  case presented => simp [present, busy, hb]

/-! ### The bytes a frame in progress has left -/

/-- What a frame in progress still has to emit (`42_frame_encoder.md` R87). -/
def bytesLeft (s : State) : List Byte :=
  match s.phase with
  | .idle => []
  | .start => frameBytes Config.hw s.sLen (slice s s.sOff.toNat s.sLen.toNat) s.acc
  | .len => s.sLen :: (slice s s.sOff.toNat s.sLen.toNat ++ [s.acc, 0x8F#8])
  | .payload => slice s (s.sOff.toNat + s.idx.toNat) (s.sLen.toNat - s.idx.toNat) ++ [s.acc, 0x8F#8]
  | .crcb => [s.acc, 0x8F#8]
  | .endm => [0x8F#8]

theorem bytesLeft_eq_nil_iff {s : State} : bytesLeft s = [] ↔ s.phase = .idle := by
  unfold bytesLeft
  cases s.phase <;> simp [frameBytes_eq]

/-- At most the whole frame is left. -/
theorem bytesLeft_length_le (s : State) : (bytesLeft s).length ≤ s.sLen.toNat + 4 := by
  unfold bytesLeft
  cases s.phase <;> simp
  omega

/-- From `s` to `t` the frame in progress has emitted `bs`, is still well placed, and has changed nothing else. -/
structure Emitted (bs : List Byte) (s t : State) : Prop where
  bytesLeft_eq : bytesLeft s = bs ++ bytesLeft t
  inv : SeqInv t
  idx_zero : t.phase = .idle → t.idx = 0#8
  state_eq : t = { s with tx := s.tx ++ bs, phase := t.phase, idx := t.idx }

theorem Emitted.trans {bs cs : List Byte} {s t u : State} (hst : Emitted bs s t) (htu : Emitted cs t u) :
    Emitted (bs ++ cs) s u where
  bytesLeft_eq := by rw [hst.bytesLeft_eq, htu.bytesLeft_eq, List.append_assoc]
  inv := htu.inv
  idx_zero := htu.idx_zero
  state_eq := by
    rw [htu.state_eq, hst.state_eq]
    simp

/-- A busy block with a well-placed frame emits the first of the bytes it has left, and the frame stays well placed. -/
theorem step_emits {s : State} (h : SeqInv s) (hb : s.phase ≠ .idle) : ∃ b t, step s = .next t ∧ Emitted [b] s t := by
  have hrange := h.range_le
  have hfit := h.blen_le
  cases hp : s.phase with
  | idle => exact absurd hp hb
  | start => exact ⟨_, _, step_start hp, by rw [bytesLeft, hp]; rfl, ⟨hrange, hfit, nofun⟩, nofun, rfl⟩
  | len =>
    rcases Nat.eq_zero_or_pos s.sLen.toNat with h0 | hpos
    · exact ⟨_, _, step_len_empty hp h0, by rw [bytesLeft, hp, h0]; rfl, ⟨hrange, hfit, nofun⟩, nofun, rfl⟩
    · exact ⟨_, _, step_len_payload hp hpos, by rw [bytesLeft, hp]; rfl, ⟨hrange, hfit, fun _ => hpos⟩, nofun, rfl⟩
  | payload =>
    have hsucc := SeqInv.idx_succ hp h
    have hidx := h.idx_lt hp
    rcases Nat.lt_or_eq_of_le (Nat.succ_le_of_lt hidx) with hmore | hlast
    · have hrest : s.sLen.toNat - s.idx.toNat = s.sLen.toNat - (s.idx.toNat + 1) + 1 := by omega
      refine ⟨_, _, step_payload_more hp h hmore, ?_, ⟨hrange, hfit, fun _ => hsucc.trans_lt hmore⟩, nofun, rfl⟩
      rw [bytesLeft, hp, hrest, slice_succ, Nat.add_assoc, ← hsucc]
      rfl
    · have hrest : s.sLen.toNat - s.idx.toNat = 0 + 1 := by omega
      refine ⟨_, _, step_payload_last hp h hlast, ?_, ⟨hrange, hfit, nofun⟩, nofun, rfl⟩
      rw [bytesLeft, hp, hrest, slice_succ]
      rfl
  | crcb => exact ⟨_, _, step_crcb hp, by rw [bytesLeft, hp]; rfl, ⟨hrange, hfit, nofun⟩, nofun, rfl⟩
  | endm => exact ⟨_, _, step_endm hp, by rw [bytesLeft, hp]; rfl, ⟨hrange, hfit, nofun⟩, fun _ => rfl, rfl⟩

/-! ### Runs of the sequencer -/

theorem core_run_succ (M : Host.Core) {s t : M.State} (h : M.step s = .next t) (k : Nat) : M.run (k + 1) s = M.run k t := by
  rw [Host.Core.run, h]

theorem seqRun_succ {c : Config} {s t : State} (h : seqStep c s = .next t) (k : Nat) :
    seqRun c (k + 1) s = seqRun c k t := by
  rw [seqRun, h]

/-- While bytes are left, the machine and the sequencer run alike and emit one of them per step. -/
theorem run_emits {s : State} {k : Nat} (h : SeqInv s) (hz : s.phase = .idle → s.idx = 0#8)
    (hk : k ≤ (bytesLeft s).length) : ∃ bs t, bs.length = k ∧ Emitted bs s t ∧
      Host.Core.run Sys2Proof.core k s = .next t ∧ seqRun Config.hw k s = .next t := by
  induction k generalizing s with
  | zero => exact ⟨[], s, rfl, ⟨rfl, h, hz, by simp⟩, rfl, rfl⟩
  | succ k ih =>
    have hb : s.phase ≠ .idle := fun hi => by simp [bytesLeft_eq_nil_iff.mpr hi] at hk
    obtain ⟨b, t, hstep, hfirst⟩ := step_emits h hb
    rw [hfirst.bytesLeft_eq] at hk
    obtain ⟨bs, u, hlen, hrest, hrun, hseq⟩ := ih hfirst.inv hfirst.idx_zero (Nat.le_of_succ_le_succ hk)
    exact ⟨b :: bs, u, congrArg Nat.succ hlen, hfirst.trans hrest, (core_run_succ Sys2Proof.core hstep k).trans hrun,
      (seqRun_succ ((step_busy hb).symm.trans hstep) k).trans hseq⟩

/-- `s` with its frame in progress emitted to the end. -/
def frameDone (s : State) : State := { s with tx := s.tx ++ bytesLeft s, phase := .idle, idx := 0#8 }

/-- As many steps as bytes are left end the frame. -/
theorem run_bytesLeft {s : State} (h : SeqInv s) (hz : s.phase = .idle → s.idx = 0#8) :
    Host.Core.run Sys2Proof.core (bytesLeft s).length s = .next (frameDone s) ∧
      seqRun Config.hw (bytesLeft s).length s = .next (frameDone s) := by
  obtain ⟨bs, t, hlen, hall, hrun, hseq⟩ := run_emits h hz le_rfl
  have hnone : bytesLeft t = [] := by
    have hsum := congrArg List.length hall.bytesLeft_eq
    rw [List.length_append, hlen] at hsum
    exact List.eq_nil_of_length_eq_zero (Nat.left_eq_add.mp hsum)
  have hbs : bs = bytesLeft s := by rw [hall.bytesLeft_eq, hnone, List.append_nil]
  have hidle := bytesLeft_eq_nil_iff.mp hnone
  have hdone : t = frameDone s := by rw [hall.state_eq, hbs, hidle, hall.idx_zero hidle, frameDone]
  exact hdone ▸ ⟨hrun, hseq⟩

/-- Settles O48: one step per byte that is left. -/
theorem sequencerEnds : Obligations.SequencerEnds := by
  intro s h
  by_cases hi : s.phase = .idle
  · exact ⟨0, s, Nat.zero_le _, rfl, hi, h⟩
  · obtain ⟨hrun, -⟩ := run_bytesLeft h (absurd · hi)
    exact ⟨_, _, bytesLeft_length_le s, hrun, rfl, h.range_le, h.blen_le, nofun⟩

/-! ### From the start of a frame -/

section
variable {s : State} (hi : s.phase = .idle) (hfit : Fits s) {off : Half} {len : Byte}
  (hv : off.toNat + len.toNat ≤ s.blen.toNat)

include hfit hv in
theorem seqInv_seqStart : SeqInv (seqStart off len s) := ⟨hv, hfit, nofun⟩

theorem bytesLeft_seqStart_length (s : State) (off : Half) (len : Byte) :
    (bytesLeft (seqStart off len s)).length = len.toNat + 4 := frameBytes_slice_length Config.hw s _ _ _

include hi in
/-- A frame run to its end from its start is the frame of the atomic level (`42_frame_encoder.md` R90). -/
theorem frameDone_seqStart :
    frameDone (seqStart off len s) = emitFrame Config.hw off len (slice s off.toNat len.toNat) s := by
  rw [frameDone, ← hi]
  rfl

include hi hfit hv in
/-- `len + 4` steps from the start of a frame emit it whole, by the machine and by the sequencer. -/
theorem run_seqStart :
    Host.Core.run Sys2Proof.core (len.toNat + 4) (seqStart off len s) =
      .next (emitFrame Config.hw off len (slice s off.toNat len.toNat) s) ∧
    seqRun Config.hw (len.toNat + 4) (seqStart off len s) =
      .next (emitFrame Config.hw off len (slice s off.toNat len.toNat) s) := by
  rw [← bytesLeft_seqStart_length s off len, ← frameDone_seqStart hi]
  exact run_bytesLeft (seqInv_seqStart hfit hv) nofun

end

/-- Settles O49: fewer steps leave bytes to emit, and all of them leave the state of the atomic `ENC`. -/
theorem sequencerAgreesWithFrame : Obligations.SequencerAgreesWithFrame := by
  intro s off len hi hfit hv
  obtain ⟨-, hseq⟩ := run_seqStart hi hfit hv
  refine ⟨_, _, hseq, fun k u hk hu hidle => ?fewer, frame_slice _ _ _ _ _, rfl, hi, rfl, rfl, rfl, rfl,
    fun hf => ⟨_, exec_enc_of_valid ⟨hi, hf⟩ hfit hv, rfl⟩⟩
  have hlen := bytesLeft_seqStart_length s off len
  obtain ⟨bs, t, hbs, hsome, -, ht⟩ := run_emits (seqInv_seqStart hfit hv) nofun (hk.le.trans_eq hlen.symm)
  obtain rfl : u = t := by simpa [hu] using ht
  rw [hsome.bytesLeft_eq, bytesLeft_eq_nil_iff.mpr hidle, List.append_nil, hbs] at hlen
  exact hk.ne hlen

/-- A sub-range command that emits a frame, and the same command with the frame's start in its place: they record the same
fault, or the frame run from its start reaches the first one's state. `acc'` is what the command writes to `acc`. -/
theorem command_range_refines {s t : State} {w : Word} {off : Half} {len : Byte} {acc' : List Byte → Byte} (hr : Ready s)
    (hfit : Fits s) (h : command s (withRange Config.hw w off len s fun p =>
      .next (emitFrame Config.hw off len p { s with acc := acc' p })) = .next t) :
    ∃ u, command s (withRange Config.hw w off len s fun p => .next (seqStart off len { s with acc := acc' p })) = .next u ∧
      (t.fault = true → u = t) ∧ (t.fault = false → Host.Core.run Sys2Proof.core (len.toNat + 4) u = .next t) := by
  obtain ⟨hi, hrun⟩ := hr
  rcases command_range_next h hrun with ⟨hout, rfl⟩ | ⟨hin, rfl⟩
  · exact ⟨_, command_withRange_invalid ⟨hi, hrun⟩ hout, fun _ => rfl, nofun⟩
  · obtain ⟨hcore, -⟩ := run_seqStart (s := { s with acc := acc' (slice s off.toNat len.toNat) }) hi hfit hin
    exact ⟨_, (command_ready ⟨hi, hrun⟩ _).trans (withRange_valid hfit hin), fun hf => absurd (hrun.symm.trans hf) nofun,
      fun _ => hcore⟩

/-- Settles O50: `ENC` leaves `acc` and `FRAME` writes the CRC to it before the frame starts. -/
theorem byteLevelRefinesAtomic : Obligations.ByteLevelRefinesAtomic := by
  intro s t i off len hr hfit hi h
  rcases hi with rfl | rfl
  · exact command_range_refines (acc' := fun _ => s.acc) hr hfit h
  · exact command_range_refines (acc' := computeCrc Config.hw) hr hfit h

end Sys2Proof.Machine
end

section
/-! PROOFS. The Transmission Session (`44_host_sessions.md` R95 to R103, R112): what loading a payload leaves in the block, what
one attempt sends and where it leaves the session, and that a run stops exactly where the block has faulted. -/

namespace Sys2Proof.Machine

/-! ### Command words that only fill the buffer -/

theorem runWords_append {ws ws' : List Word} {s t : State} (h : runWords ws s = .next t) :
    runWords (ws ++ ws') s = runWords ws' t := by
  induction ws generalizing s with
  | nil =>
    cases h
    rfl
  | cons w ws ih =>
    obtain ⟨u, hu, hrest⟩ := runWords_cons_next h
    exact (runWords_cons hu).trans (ih hrest)

/-- A halted block ignores a whole command list (`60_exceptions.md` R122). -/
theorem runWords_halted (ws : List Word) {s : State} (hi : s.phase = .idle) (hf : s.fault = true) :
    runWords ws s = .next s := by
  induction ws with
  | nil => rfl
  | cons w ws ih => exact (runWords_cons (command_halted hi hf _)).trans ih

/-- `BPUSH` words that leave no fault emit nothing and do not move the phase. -/
theorem runWords_pushes_silent {ds : List Byte} {s t : State}
    (h : runWords (ds.map fun d => encode (.bpush d)) s = .next t) (hf : t.fault = false) :
    t.tx = s.tx ∧ t.phase = s.phase := by
  induction ds generalizing s with
  | nil =>
    cases h
    exact ⟨rfl, rfl⟩
  | cons d ds ih =>
    obtain ⟨u, hu, hrest⟩ := runWords_cons_next h
    obtain ⟨-, i, hd, he⟩ := runWord_effect hu (fault_false_of_runWords hrest hf)
    obtain rfl : i = .bpush d := by simpa [decodeEncodeRoundTrip _] using hd.symm
    obtain ⟨htx, hphase, -⟩ := he.silent fun _ _ => ⟨nofun, nofun⟩
    obtain ⟨htx', hphase'⟩ := ih hrest
    exact ⟨htx'.trans htx, hphase'.trans hphase⟩

/-! ### A loaded payload -/

/-- The block is ready and its valid bytes are the payload (`44_host_sessions.md` R95). -/
structure Loaded (payload : List Byte) (b : State) : Prop where
  ready : Ready b
  fits : Fits b
  bytes : validBytes b = payload

/-- Loading a payload that fits leaves it in the block and emits nothing. -/
theorem runWords_loadWords {s : State} {payload : List Byte} (hr : Ready s) (hfit : payload.length ≤ Config.hw.bufCap) :
    ∃ b, runWords (loadWords payload) s = .next b ∧ Loaded payload b ∧ b.tx = s.tx := by
  have hclear := (runWord_encode .bclr hr.1).trans (exec_bclr hr)
  obtain ⟨b, hrun, hf, hbytes⟩ := runWords_pushes (s := { s with blen := 0#16 }) payload hr (by simpa using hfit)
  obtain ⟨htx, hphase⟩ := runWords_pushes_silent hrun hf
  rw [validBytes_of_blen_zero (s := { s with blen := 0#16 }) rfl, List.nil_append] at hbytes
  have hblen := (blen_and_slice_of_validBytes hbytes).1
  exact ⟨b, (runWords_cons hclear).trans hrun, ⟨⟨hphase.trans hr.1, hf⟩, hblen.trans_le hfit, hbytes⟩, htx⟩

/-- A payload of more than `BUF_CAP` bytes: the push of the first byte that does not fit halts the block, which ignores the
rest (`60_exceptions.md` R116, R122). -/
theorem runWords_loadWords_overfull {s : State} {p rest : List Byte} {d : Byte} (hr : Ready s)
    (hfull : p.length = Config.hw.bufCap) : ∃ b, runWords (loadWords (p ++ d :: rest)) s =
      .next (withRecord 3#8 (encode (.bpush d)) b) ∧ b.tx = s.tx := by
  obtain ⟨b, hrun, hload, htx⟩ := runWords_loadWords hr hfull.le
  have hblen := (blen_and_slice_of_validBytes hload.bytes).1.trans hfull
  have hpush := (runWord_encode (.bpush d) hload.ready.1).trans (exec_bpush_of_full hload.ready hblen)
  have hsplit : loadWords (p ++ d :: rest) =
      loadWords p ++ encode (.bpush d) :: rest.map fun d => encode (.bpush d) := by simp [loadWords]
  refine ⟨b, ?_, htx⟩
  rw [hsplit, runWords_append hrun, runWords_cons hpush]
  exact runWords_halted _ hload.ready.1 rfl

/-- A sub-range below `blen` is a part of the valid bytes. -/
theorem slice_eq_take_drop_validBytes {s : State} {off n : Nat} (hv : off + n ≤ s.blen.toNat) :
    slice s off n = ((validBytes s).drop off).take n := by
  have hlen : n ≤ s.blen.toNat - off := Nat.le_sub_of_add_le' hv
  exact List.ext_getElem (by simpa using hlen) fun i _ _ => by simp [slice, validBytes]

/-! ### The chunk a session sends next -/

/-- The payload bytes of the chunk at the cursor (`44_host_sessions.md` R96). -/
def TxSession.nextChunk (t : TxSession) : List Byte := (t.payload.drop t.cursor).take Config.chunkSize

@[simp] theorem nextChunk_length (t : TxSession) : t.nextChunk.length = t.chunkLen := by
  simp [TxSession.nextChunk, TxSession.chunkLen]

theorem chunkLen_le (t : TxSession) : t.chunkLen ≤ 255 := (Nat.min_le_left _ _).trans (by decide)

/-- The `FRAME` command of a `Sending` step emits the frame of the chunk at the cursor, and the payload stays loaded. -/
theorem Loaded.runWord_sendCommand {t : TxSession} {b : State} (h : Loaded t.payload b)
    (hc : t.cursor ≤ t.payload.length) : ∃ b', runWord (encode t.sendCommand) b = .next b' ∧ Loaded t.payload b' ∧
      b'.tx = b.tx ++ chunkFrame t.nextChunk := by
  obtain ⟨hr, hfit, hbytes⟩ := h
  have hblen := (blen_and_slice_of_validBytes hbytes).1
  have hcap : b.blen.toNat ≤ 256 := hfit
  have hoff : (BitVec.ofNat 16 t.cursor).toNat = t.cursor :=
    (BitVec.toNat_ofNat _ _).trans (Nat.mod_eq_of_lt (by omega))
  have hlen : (BitVec.ofNat 8 t.chunkLen).toNat = t.chunkLen :=
    (BitVec.toNat_ofNat _ _).trans (Nat.mod_eq_of_lt (Nat.lt_succ_of_le (chunkLen_le t)))
  have hend : t.cursor + t.chunkLen ≤ b.blen.toNat :=
    (Nat.add_le_of_le_sub' hc (Nat.min_le_right _ _)).trans_eq hblen.symm
  have hslice : slice b t.cursor t.chunkLen = t.nextChunk := by
    rw [slice_eq_take_drop_validBytes hend, hbytes, ← nextChunk_length]
    simp [TxSession.nextChunk]
  have hframe := exec_frame_of_valid hr hfit (off := BitVec.ofNat 16 t.cursor) (len := BitVec.ofNat 8 t.chunkLen)
    (by rwa [hoff, hlen])
  rw [hoff, hlen, hslice] at hframe
  refine ⟨_, (runWord_encode t.sendCommand hr.1).trans hframe, ⟨hr, hfit, hbytes⟩, ?_⟩
  simp [chunkFrame, emitFrame, emit]

/-! ### One attempt -/

/-- The session after its `Advancing` step (`44_host_sessions.md` R101). -/
def TxSession.advance (t : TxSession) : TxSession :=
  { t with
    cursor := t.cursor + Config.chunkSize
    phase := if t.cursor + Config.chunkSize ≤ t.payload.length then .sending else .done }

/-- Where an attempt at the chunk of the session `t` leaves it. -/
def TxSession.afterRead (read : Option Byte) (t : TxSession) : TxSession := if acknowledged read then t.advance else t

@[simp] theorem afterRead_acknowledged (t : TxSession) : t.afterRead (some 0x90#8) = t.advance := rfl

theorem afterRead_unacknowledged {read : Option Byte} (h : read ≠ some 0x90#8) (t : TxSession) : t.afterRead read = t := by
  simp [TxSession.afterRead, acknowledged, Config.ack, h]

/-- A step without a command leaves a running block as it is. -/
theorem txStep_silent {read : Option Byte} {t t' : TxSession} {b : State} (hf : b.fault = false)
    (h : t.step read = (t', [])) :
    TxSystem.step read { session := t, block := b } = .next { session := t', block := b } := by
  simp only [TxSystem.step, h]
  exact watch_running hf

theorem txStep_sending {read : Option Byte} {t : TxSession} {b b' : State} (hp : t.phase = .sending)
    (hsend : runWord (encode t.sendCommand) b = .next b') (hf : b'.fault = false) :
    TxSystem.step read { session := t, block := b } = .next { session := { t with phase := .awaitingAck }, block := b' } := by
  have hstep : t.step read = ({ t with phase := .awaitingAck }, [t.sendCommand]) := by rw [TxSession.step, hp]
  simp only [TxSystem.step, hstep, List.map_cons, List.map_nil, runWords_cons hsend]
  exact watch_running hf

/-- An attempt whose command the block answers without a fault: it advances where the read acknowledged it. -/
theorem attempt_of_sent {read : Option Byte} {t : TxSession} {b b' : State} (hp : t.phase = .sending)
    (hsend : runWord (encode t.sendCommand) b = .next b') (hf : b'.fault = false) :
    TxSystem.attempt read { session := t, block := b } = .next { session := t.afterRead read, block := b' } := by
  obtain ⟨payload, cursor, phase⟩ := t
  obtain rfl : phase = .sending := hp
  have hstep := txStep_sending (read := none) rfl hsend hf
  simp only [TxSystem.attempt, hstep, SystemRes.andThen, TxSession.afterRead]
  cases hack : acknowledged read with
  | true =>
    rw [txStep_silent (t' := ⟨payload, cursor, .advancing⟩) hf (by simp [TxSession.step, hack])]
    exact txStep_silent hf rfl
  | false =>
    rw [txStep_silent (t' := ⟨payload, cursor, .sending⟩) hf (by simp [TxSession.step, hack])]
    rfl

/-- An attempt of a session in `Sending` over its loaded payload sends the chunk's frame once. -/
theorem Loaded.attempt {t : TxSession} {b : State} (h : Loaded t.payload b) (hp : t.phase = .sending)
    (hc : t.cursor ≤ t.payload.length) (read : Option Byte) : ∃ b',
      TxSystem.attempt read { session := t, block := b } = .next { session := t.afterRead read, block := b' } ∧
      Loaded t.payload b' ∧ b'.tx = b.tx ++ chunkFrame t.nextChunk := by
  obtain ⟨b', hsend, hload, htx⟩ := h.runWord_sendCommand hc
  exact ⟨b', attempt_of_sent hp hsend hload.ready.2, hload, htx⟩

theorem attempts_cons {read : Option Byte} {reads : List (Option Byte)} {y z : TxSystem}
    (h : TxSystem.attempt read y = .next z) : TxSystem.attempts (read :: reads) y = TxSystem.attempts reads z := by
  rw [TxSystem.attempts, h, SystemRes.andThen]

/-! ### Chunks that are not acknowledged -/

/-- Attempts that are not acknowledged send one frame again and again and do not move the session. -/
theorem Loaded.attempts_unacknowledged {t : TxSession} {b : State} {reads : List (Option Byte)} (h : Loaded t.payload b)
    (hp : t.phase = .sending) (hc : t.cursor ≤ t.payload.length) (hreads : ∀ r ∈ reads, r ≠ some 0x90#8) : ∃ b',
      TxSystem.attempts reads { session := t, block := b } = .next { session := t, block := b' } ∧ b'.fault = false ∧
      b'.tx = b.tx ++ (List.replicate reads.length (chunkFrame t.nextChunk)).flatten := by
  induction reads generalizing b with
  | nil => exact ⟨b, rfl, h.ready.2, by simp⟩
  | cons read reads ih =>
    obtain ⟨hread, hrest⟩ := List.forall_mem_cons.mp hreads
    obtain ⟨u, hfirst, hload, htx⟩ := h.attempt hp hc read
    rw [afterRead_unacknowledged hread] at hfirst
    obtain ⟨b', hrun, hf, htx'⟩ := ih hload hrest
    refine ⟨b', (attempts_cons hfirst).trans hrun, hf, ?_⟩
    simp [htx', htx, List.replicate_succ]

/-- Settles O59: the session does not move, and the block keeps the payload, so every attempt sends the same frame. -/
theorem sessionRetriesIdenticalFrame : Obligations.SessionRetriesIdenticalFrame := by
  rintro ⟨t, b⟩ reads hp hr hfit hblen hslice hc hreads
  have hbytes : validBytes b = t.payload := (congrArg (slice b 0) hblen).trans hslice
  obtain ⟨b', hrun, hf, htx⟩ := Loaded.attempts_unacknowledged ⟨hr, hfit, hbytes⟩ hp hc hreads
  exact ⟨_, hrun, rfl, hf, htx⟩

/-! ### Chunks that are all acknowledged -/

/-- The session after `k` acknowledged chunks (`44_host_sessions.md` R101, R102): `Done` once the cursor is past the payload. -/
def sessionAfter (payload : List Byte) (k : Nat) : TxSession :=
  { payload := payload, cursor := 4 * k, phase := if 4 * k ≤ payload.length then .sending else .done }

theorem sessionAfter_zero (payload : List Byte) : sessionAfter payload 0 = TxSession.start payload := by
  simp [sessionAfter, TxSession.start]

theorem advance_sessionAfter (payload : List Byte) (k : Nat) :
    (sessionAfter payload k).advance = sessionAfter payload (k + 1) := rfl

theorem nextChunk_sessionAfter (payload : List Byte) (k : Nat) : (sessionAfter payload k).nextChunk = chunk payload k := rfl

/-- `Done` is reached after `floor(L/4) + 1` chunks and not before (`44_host_sessions.md` R103). -/
theorem sessionAfter_done_iff {payload : List Byte} {k : Nat} (hk : k ≤ payload.length / 4 + 1) :
    (sessionAfter payload k).phase = .done ↔ k = payload.length / 4 + 1 := by
  have hpast : ¬ 4 * k ≤ payload.length ↔ k = payload.length / 4 + 1 := by omega
  simp [sessionAfter, ← hpast]

/-- `n` acknowledged attempts after `k` chunks send the frames of the `n` chunks from `k` on, in order. -/
theorem Loaded.attempts_acknowledged {payload : List Byte} {b : State} {k n : Nat} (h : Loaded payload b)
    (hn : k + n ≤ payload.length / 4 + 1) : ∃ b',
      TxSystem.attempts (List.replicate n (some 0x90#8)) { session := sessionAfter payload k, block := b } =
        .next { session := sessionAfter payload (k + n), block := b' } ∧ b'.fault = false ∧
      b'.tx = b.tx ++ (List.range' k n).flatMap fun j => chunkFrame (chunk payload j) := by
  induction n generalizing b k with
  | zero => exact ⟨b, rfl, h.ready.2, by simp⟩
  | succ n ih =>
    have hc : 4 * k ≤ payload.length := by omega
    obtain ⟨u, hfirst, hload, htx⟩ := Loaded.attempt (t := sessionAfter payload k) h (if_pos hc) hc (some 0x90#8)
    rw [afterRead_acknowledged, advance_sessionAfter] at hfirst
    obtain ⟨b', hrun, hf, htx'⟩ := ih (k := k + 1) hload (by omega)
    refine ⟨b', ?_, hf, ?_⟩
    · rw [List.replicate_succ, attempts_cons hfirst, hrun, Nat.add_right_comm, Nat.add_assoc]
    · rw [htx', htx, nextChunk_sessionAfter, List.range'_succ, List.flatMap_cons, List.append_assoc]

/-- A run goes on with its attempts where loading left no fault. -/
theorem runSession_of_loaded {payload : List Byte} {reads : List (Option Byte)} {s b : State}
    (h : runWords (loadWords payload) s = .next b) (hf : b.fault = false) :
    runSession payload reads s = TxSystem.attempts reads { session := TxSession.start payload, block := b } := by
  rw [runSession, h, watch_running hf, SystemRes.andThen]

/-- Settles O58: loading, then one chunk per acknowledged attempt. -/
theorem sessionSendsEveryChunk : Obligations.SessionSendsEveryChunk := by
  intro s payload n hr hfit hn
  obtain ⟨b, hrun, hload, htx⟩ := runWords_loadWords hr hfit
  obtain ⟨b', hattempts, hf, htx'⟩ := hload.attempts_acknowledged (k := 0) (n := n) (by omega)
  rw [sessionAfter_zero, ← runSession_of_loaded hrun hload.ready.2, Nat.zero_add] at hattempts
  refine ⟨_, hattempts, rfl, rfl, sessionAfter_done_iff hn, hf, ?_⟩
  rw [htx', htx, List.range_eq_range']

/-! ### Runs that fail -/

/-- The host has read `fault`: what goes on has not faulted, and what has failed has (`44_host_sessions.md` R112). -/
structure SystemRes.FaultRead (o : SystemRes) : Prop where
  next : ∀ y, o = .next y → y.block.fault = false
  failed : ∀ y, o = .failed y → y.block.fault = true

theorem faultRead_watch (before after : TxSession) (r : Res) : (SystemRes.watch before after r).FaultRead where
  next _ h := (watch_next h).2.2
  failed _ h := (watch_failed h).2.2

theorem SystemRes.FaultRead.andThen {o : SystemRes} {k : TxSystem → SystemRes} (ho : o.FaultRead)
    (hk : ∀ y, y.block.fault = false → (k y).FaultRead) : (o.andThen k).FaultRead where
  next z h := by
    obtain ⟨y, hy, hz⟩ := andThen_next h
    exact (hk y (ho.next y hy)).next z hz
  failed z h := by
    rcases andThen_failed h with hz | ⟨y, hy, hz⟩
    · exact ho.failed z hz
    · exact (hk y (ho.next y hy)).failed z hz

theorem faultRead_next {y : TxSystem} (hf : y.block.fault = false) : (SystemRes.next y).FaultRead where
  next z h := by
    cases h
    exact hf
  failed z h := by cases h

theorem faultRead_step (read : Option Byte) (y : TxSystem) : (TxSystem.step read y).FaultRead := faultRead_watch _ _ _

theorem faultRead_attempt (read : Option Byte) (y : TxSystem) : (TxSystem.attempt read y).FaultRead := by
  unfold TxSystem.attempt
  split
  · exact faultRead_step none y
  · refine ((faultRead_step none y).andThen fun z _ => faultRead_step read z).andThen fun z hz => ?_
    split
    · exact faultRead_step none z
    · exact faultRead_next hz

theorem faultRead_attempts (reads : List (Option Byte)) {y : TxSystem} (hf : y.block.fault = false) :
    (TxSystem.attempts reads y).FaultRead := by
  induction reads generalizing y with
  | nil => exact faultRead_next hf
  | cons read reads ih => exact (faultRead_attempt read y).andThen fun z => ih

theorem faultRead_runSession (payload : List Byte) (reads : List (Option Byte)) (s : State) :
    (runSession payload reads s).FaultRead :=
  (faultRead_watch _ _ _).andThen fun _ => faultRead_attempts reads

/-- A run fails at its start where loading halted the block. -/
theorem runSession_of_halted {payload : List Byte} {reads : List (Option Byte)} {s b : State}
    (h : runWords (loadWords payload) s = .next b) (hf : b.fault = true) :
    runSession payload reads s = .failed { session := TxSession.start payload, block := b } := by
  rw [runSession, h, watch_halted hf, SystemRes.andThen]

/-- A host that resets a block at a command boundary runs the session on the reset block. -/
theorem recoverSession_of_idle {payload : List Byte} {reads : List (Option Byte)} {s : State} (hi : s.phase = .idle) :
    recoverSession payload reads s = runSession payload reads (resetBlock s) := by
  rw [recoverSession, present_rst hi rfl]

/-- Settles O60: every part of a run reads `fault`; a halted block ignores the load; the push after the last free byte halts
the block; and a reset block is ready, with nothing emitted. -/
theorem sessionFailsOnFault : Obligations.SessionFailsOnFault := by
  refine ⟨fun payload reads s y => ?read, fun payload reads s hi hf => ?halted, fun payload reads s hr hlong => ?long,
    fun s payload n hi hfit hn => ?recover⟩
  case read =>
    have h := faultRead_runSession payload reads s
    exact ⟨h.next y, h.failed y⟩
  case halted => exact runSession_of_halted (runWords_halted _ hi hf) hf
  case long =>
    have hsplit : payload.take 256 ++ payload[256] :: payload.drop 257 = payload := by
      rw [List.getElem_cons_drop, List.take_append_drop]
    obtain ⟨b, hrun, htx⟩ := runWords_loadWords_overfull (p := payload.take 256) (rest := payload.drop 257)
      (d := payload[256]) hr (List.length_take_of_le hlong.le)
    rw [hsplit] at hrun
    exact ⟨_, _, runSession_of_halted hrun rfl, List.getElem?_eq_getElem hlong, rfl, rfl, rfl, htx, rfl⟩
  case recover =>
    obtain ⟨y, hrun, -, hcursor, hdone, hf, htx⟩ := sessionSendsEveryChunk (resetBlock s) payload n ⟨rfl, rfl⟩ hfit hn
    exact ⟨y, (recoverSession_of_idle hi).trans hrun, hf, hcursor, hdone, htx⟩

end Sys2Proof.Machine
end

section
/-! PROOFS. Faults (`60_exceptions.md`): which of the three a word raises, that its record is all that changes, and the
order of the tests that decide it (R113 to R122). -/

namespace Sys2Proof.Machine

/-! ### Words and rows, in the terms of the fault rules -/

/-- The offset operand is read back from a format R word (`60_exceptions.md` R114). -/
@[simp] theorem wordOff_encodeR (m : Mnemonic) (off : Half) (len : Byte) : wordOff (encodeR m off len) = off := by
  simp [encodeR]

/-- The length operand is read back from a format R word. -/
@[simp] theorem wordLow_encodeR (m : Mnemonic) (off : Half) (len : Byte) : wordLow (encodeR m off len) = len := by
  simp [encodeR]

/-- The decoder rejects the words that match no row (`60_exceptions.md` R115). -/
theorem decode_error_iff_no_row {w : Word} :
    (∃ e, decode w = .error e) ↔ ∀ r ∈ opcodeMap, w &&& r.mask ≠ r.pattern :=
  illegalWordsRaiseIllegalCommand.1 w

/-- The words of `CRC`, `ENC` and `FRAME` are those of their three `op` values. -/
theorem decode_subRange_iff {w : Word} {off : Half} {len : Byte} :
    (decode w = .ok (.crc off len) ∨ decode w = .ok (.enc off len) ∨ decode w = .ok (.frame off len)) ↔
      wordOp w ∈ [0x12#8, 0x20#8, 0x21#8] ∧ off = wordOff w ∧ len = wordLow w := by
  simp [decode_eq_ok_iff, selects_iff, Instr.mnemonic, Mnemonic.op, Mnemonic.format, rowCommand, or_and_right]

/-! ### The fault a word raises -/

/-- The fault a command's own check finds (`60_exceptions.md` R119 step 3). -/
def commandFault (s : State) : Instr → Option FaultCause
  | .bpush _ => if s.blen.toNat = Config.hw.bufCap then some .bufferFull else none
  | .crc off len | .enc off len | .frame off len =>
    if s.blen.toNat < off.toNat + len.toNat then some .invalidRange else none
  | .bclr | .cinit | .cbyte _ => none

/-- The fault a word raises in a running block (`60_exceptions.md` R119 steps 2 and 3). -/
def wordFault (s : State) (w : Word) : Option FaultCause :=
  match decode w with
  | .error _ => some .illegalCommand
  | .ok i => commandFault s i

section
variable {s t : State} {w : Word}

theorem wordFault_of_rejected (hd : ∃ e, decode w = .error e) : wordFault s w = some .illegalCommand := by
  obtain ⟨e, he⟩ := hd
  rw [wordFault, he]

theorem wordFault_of_decode {i : Instr} (hd : decode w = .ok i) : wordFault s w = commandFault s i := by
  rw [wordFault, hd]

theorem wordFault_eq_invalidRange_iff : wordFault s w = some .invalidRange ↔ ∃ off len,
    (decode w = .ok (.crc off len) ∨ decode w = .ok (.enc off len) ∨ decode w = .ok (.frame off len)) ∧
    s.blen.toNat < off.toNat + len.toNat := by
  cases hd : decode w with
  | error e => simp [wordFault_of_rejected ⟨e, hd⟩]
  | ok i => cases i <;> simp [wordFault_of_decode hd, commandFault]

theorem wordFault_eq_bufferFull_iff : wordFault s w = some .bufferFull ↔
    ∃ d, decode w = .ok (.bpush d) ∧ s.blen.toNat = Config.hw.bufCap := by
  cases hd : decode w with
  | error e => simp [wordFault_of_rejected ⟨e, hd⟩]
  | ok i => cases i <;> simp [wordFault_of_decode hd, commandFault]

theorem wordFault_eq_illegalCommand_iff : wordFault s w = some .illegalCommand ↔
    ∀ r ∈ opcodeMap, w &&& r.mask ≠ r.pattern := by
  rw [← decode_error_iff_no_row]
  cases hd : decode w with
  | error e => simp [wordFault_of_rejected ⟨e, hd⟩]
  | ok i => cases i <;> simp [wordFault_of_decode hd, commandFault]

/-- `InvalidRange` in the fields of the word. -/
theorem wordFault_eq_invalidRange_iff_fields : wordFault s w = some .invalidRange ↔
    wordOp w ∈ [0x12#8, 0x20#8, 0x21#8] ∧ s.blen.toNat < (wordOff w).toNat + (wordLow w).toNat := by
  rw [wordFault_eq_invalidRange_iff]
  simp only [decode_subRange_iff, and_assoc, exists_and_left, exists_eq_left]

/-- `BufferFull` in the row of `BPUSH`. -/
theorem wordFault_eq_bufferFull_iff_row : wordFault s w = some .bufferFull ↔
    w &&& 0xFFFFFF00#32 = 0x02000000#32 ∧ s.blen.toNat = Config.hw.bufCap := by
  obtain ⟨-, hpush, -⟩ := opcodeMapSelectsCommand.1 w
  simp [wordFault_eq_bufferFull_iff, hpush]

/-! ### What a word leaves in the fault record -/

/-- A command's effect is the record of the fault its check finds, or leaves the record alone. -/
theorem Effect.record {i : Instr} (he : Effect s t i) :
    (∃ f, commandFault s i = some f ∧ t = raise f (encode i) s) ∨
    (commandFault s i = none ∧ t.fault = s.fault ∧ t.cause = s.cause ∧ t.finfo = s.finfo) := by
  cases i with
  | bclr | cinit | cbyte =>
    obtain rfl := he
    exact .inr ⟨rfl, rfl, rfl, rfl⟩
  | bpush =>
    rcases he with ⟨hfull, rfl⟩ | ⟨hroom, rfl⟩
    · exact .inl ⟨_, if_pos hfull, rfl⟩
    · exact .inr ⟨if_neg hroom.ne, rfl, rfl, rfl⟩
  | crc | enc | frame =>
    rcases he with ⟨hout, rfl⟩ | ⟨hin, rfl⟩
    · exact .inl ⟨_, if_pos hout, rfl⟩
    · exact .inr ⟨if_neg hin.not_gt, rfl, rfl, rfl⟩

/-- A word given to a running block leaves its fault's record and nothing else, or leaves the record alone. -/
theorem runWord_record (hf : s.fault = false) (h : runWord w s = .next t) :
    (∃ f, wordFault s w = some f ∧ t = raise f w s) ∨
    (wordFault s w = none ∧ t.fault = false ∧ t.cause = s.cause ∧ t.finfo = s.finfo) := by
  rcases runWord_cases (w := w) (command_next h).1 with ⟨hs, -⟩ | ⟨-, hd, hrun⟩ | ⟨-, i, hd, hrun⟩
  · simp [hf] at hs
  · cases hrun.symm.trans h
    exact .inl ⟨_, wordFault_of_rejected hd, rfl⟩
  · rcases exec_next (hrun.symm.trans h) with ⟨-, ⟨hs, -⟩ | ⟨-, he⟩⟩
    · simp [hf] at hs
    · rw [wordFault_of_decode hd, ← hf, ← encodeDecodeRoundTrip w i hd]
      exact he.record

/-- No two faults share a code (`60_exceptions.md` R113). -/
theorem faultCode_injective : Function.Injective faultCode := fun f g h => by
  have hmem (f : FaultCause) : f ∈ [FaultCause.invalidRange, .illegalCommand, .bufferFull] := by cases f <;> decide
  exact List.inj_on_of_nodup_map (by decide) (hmem f) (hmem g) h

/-- The code in the record of a running block is that of the fault the word raises. -/
theorem recorded_iff_wordFault (hf : s.fault = false) (h : runWord w s = .next t) (f : FaultCause) :
    (t.fault = true ∧ t.cause = faultCode f) ↔ wordFault s w = some f := by
  rcases runWord_record hf h with ⟨g, hg, rfl⟩ | ⟨hnone, hok, -, -⟩
  · simp [hg, faultCode_injective.eq_iff]
  · simp [hnone, hok]

/-- A word that raises a fault runs to its record (`60_exceptions.md` R121). -/
theorem runWord_of_wordFault (hr : Ready s) (hfit : Fits s) {f : FaultCause} (hw : wordFault s w = some f) :
    runWord w s = .next (raise f w s) := by
  obtain ⟨t, h⟩ := runWord_answers w hr.1 hfit
  rcases runWord_record hr.2 h with ⟨g, hg, rfl⟩ | ⟨hnone, -, -, -⟩
  · obtain rfl : f = g := by simpa [hw] using hg
    exact h
  · simp [hw] at hnone

/-- A halted block ignores every word (`60_exceptions.md` R122). -/
theorem runWord_halted (w : Word) (hi : s.phase = .idle) (hf : s.fault = true) : runWord w s = .next s :=
  command_halted hi hf _

end

/-! ### The obligations -/

/-- Settles O17: a word halts a running block only by the record of its own fault. -/
theorem faultEntryIsPrecise : Obligations.FaultEntryIsPrecise := by
  intro s t w hf h hfault
  rcases runWord_record hf h with ⟨f, -, rfl⟩ | ⟨-, hok, -, -⟩
  · refine ⟨rfl, ?_⟩
    cases f <;> simp [faultCode]
  · simp [hok] at hfault

/-- Settles O16: the code in the record says which fault the word raises, and each fault has its condition. -/
theorem exactlyThreeFaults : Obligations.ExactlyThreeFaults := by
  intro s w hinv hf
  obtain ⟨t, h⟩ := runWord_answers w hinv.idle hinv.blen_le
  have hcode := recorded_iff_wordFault hf h
  have hprecise := faultEntryIsPrecise s t w hf h
  refine ⟨t, h, ?clear, fun hfault => congrArg State.finfo (hprecise hfault).1,
    (hcode .invalidRange).trans wordFault_eq_invalidRange_iff,
    (hcode .illegalCommand).trans wordFault_eq_illegalCommand_iff,
    (hcode .bufferFull).trans wordFault_eq_bufferFull_iff, fun hfault => (hprecise hfault).2⟩
  case clear =>
    intro hok
    rcases runWord_record hf h with ⟨f, -, rfl⟩ | ⟨-, -, hcause, hfinfo⟩
    · simp at hok
    · exact ⟨hcause.trans (hinv.fault_iff.mp hf), hfinfo.trans (hinv.finfo_clear hf)⟩

/-- Settles O18: a word runs without a fault where none of the three conditions holds. -/
theorem orderOfTests : Obligations.OrderOfTests := by
  intro s w hi hfit
  refine ⟨runWord_halted w hi, ?illegal, ?range, ?full, ?runs⟩
  case illegal =>
    exact fun hf hrow => runWord_of_wordFault ⟨hi, hf⟩ hfit (wordFault_eq_illegalCommand_iff.mpr hrow)
  case range =>
    exact fun hf hop hout => runWord_of_wordFault ⟨hi, hf⟩ hfit (wordFault_eq_invalidRange_iff_fields.mpr ⟨hop, hout⟩)
  case full =>
    exact fun hf hrow hfull => runWord_of_wordFault ⟨hi, hf⟩ hfit (wordFault_eq_bufferFull_iff_row.mpr ⟨hrow, hfull⟩)
  case runs =>
    rintro hf ⟨r, hr, hrow⟩ hrange hfull
    have hnone (f : FaultCause) : wordFault s w ≠ some f := fun hw => by
      cases f with
      | illegalCommand => exact wordFault_eq_illegalCommand_iff.mp hw r hr hrow
      | invalidRange => exact hrange (wordFault_eq_invalidRange_iff_fields.mp hw)
      | bufferFull => exact hfull (wordFault_eq_bufferFull_iff_row.mp hw)
    obtain ⟨t, h⟩ := runWord_answers w hi hfit
    rcases runWord_record hf h with ⟨f, hw, -⟩ | ⟨-, hok, -, -⟩
    · exact absurd hw (hnone f)
    · obtain ⟨-, i, hd, -⟩ := runWord_effect h hok
      have hexec := runWord_of_decode hi hd
      exact ⟨i, t, hd, hexec, hexec ▸ h, hok⟩

/-- Settles O9: the presented word is rejected by the decoder, in the state with the presentation taken off. -/
theorem illegalCommandEntry : Obligations.IllegalCommandEntry := by
  intro s w rest hr hh hrow
  calc step s = present { rst := false, cmd := some w } { s with host := rest } := step_of_host_cons hr.1 hh
    _ = runWord w { s with host := rest } := present_word hr.1 rfl rfl
    _ = .next (raise .illegalCommand w { s with host := rest }) :=
      runWord_of_rejected (decode_error_iff_no_row.mpr hrow) hr

/-- Settles O10: without `rst` a presentation holds no word, or one that is ignored. -/
theorem haltedIgnoresEveryWord : Obligations.HaltedIgnoresEveryWord := by
  intro s hi hf
  refine ⟨fun w => runWord_halted w hi hf, fun i => exec_halted i hi hf, fun p rest hh hrst => ?_⟩
  rw [step_of_host_cons hi hh]
  cases hc : p.cmd with
  | none => exact present_none hi hrst hc
  | some w => exact (present_word (s := { s with host := rest }) hi hrst hc).trans (runWord_halted w hi hf)

/-- Settles O15: the record holds the command's own word, a format R word of its operands. -/
theorem invalidRangeEntry : Obligations.InvalidRangeEntry := by
  intro s off len hr hv
  have hexec {i : Instr} := exec_of_invalid_range (i := i) hr hv
  refine ⟨hexec (by simp), hexec (by simp), hexec (by simp), fun i hi => ⟨_, hexec hi, ?_⟩⟩
  simp only [List.mem_cons, List.not_mem_nil, or_false] at hi
  rcases hi with rfl | rfl | rfl <;> exact ⟨wordOff_encodeR _ off len, wordLow_encodeR _ off len⟩

end Sys2Proof.Machine
end

section
/-! PROOFS. Reset (`70_reset_and_hazards.md` R131, R132): what a presented reset leaves, that a second one changes nothing, and
that a fault's record is kept until then (`60_exceptions.md` R122, R123). -/

namespace Sys2Proof.Machine

section
variable {s t : State} {p : PortInput} {rest : List PortInput}

/-- A reset presented at a command boundary is taken off the host's list and resets the block, whatever word comes with it. -/
theorem step_of_rst (hi : s.phase = .idle) (hh : s.host = p :: rest) (hr : p.rst = true) :
    step s = .next (resetBlock { s with host := rest }) := by
  rw [step_of_host_cons hi hh]
  exact present_rst hi hr

/-- With no reset presented, a halted block at a command boundary changes nothing but the host's list. -/
theorem step_halted_idle_next (hi : s.phase = .idle) (hf : s.fault = true) (h : step s = .next t) :
    (∃ l, t = { s with host := l }) ∨ ∃ p rest, s.host = p :: rest ∧ p.rst = true ∧ t = resetBlock { s with host := rest } := by
  cases hh : s.host with
  | nil =>
    rw [step_of_host_nil hi hh] at h
    cases h
    exact .inl ⟨s.host, rfl⟩
  | cons p rest =>
    cases hr : p.rst with
    | true =>
      rw [step_of_rst hi hh hr] at h
      cases h
      exact .inr ⟨p, rest, rfl, hr, rfl⟩
    | false =>
      obtain ⟨-, -, hignored⟩ := haltedIgnoresEveryWord s hi hf
      rw [hignored p rest hh hr] at h
      cases h
      exact .inl ⟨rest, rfl⟩

/-- The sequencer leaves the fault record of a busy block alone. -/
theorem step_busy_record (hb : s.phase ≠ .idle) (h : step s = .next t) :
    t.fault = s.fault ∧ t.cause = s.cause ∧ t.finfo = s.finfo := by
  obtain ⟨bs, ht⟩ := seqStep_next (step_busy hb ▸ h)
  rw [ht]
  exact ⟨rfl, rfl, rfl⟩

end

/-! ### The obligations -/

/-- Settles O57: a busy block's sequencer does not write the record, and an idle halted block writes it only on a reset. -/
theorem onlyResetClearsFault : Obligations.OnlyResetClearsFault := by
  intro s t hf h
  by_cases hi : s.phase = .idle
  · rcases step_halted_idle_next hi hf h with ⟨l, rfl⟩ | ⟨p, rest, hh, hr, rfl⟩
    · exact .inl ⟨hf, rfl, rfl⟩
    · exact .inr ⟨p, rest, hi, hh, hr, rfl⟩
  · obtain ⟨hfault, hcause, hfinfo⟩ := step_busy_record hi h
    exact .inl ⟨hfault.trans hf, hcause, hfinfo⟩

/-- Settles O11: the registers are those a reset block has. -/
theorem resetStepState : Obligations.ResetStepState :=
  fun _ _ _ hi hh hr => ⟨_, step_of_rst hi hh hr, rfl⟩

/-- Settles O12: the first reset leaves the block at a command boundary, and resetting a reset block writes what it holds. -/
theorem twoResetsEqualOne : Obligations.TwoResetsEqualOne :=
  fun _ _ _ _ hi hh hp hq => ⟨_, _, step_of_rst hi hh hp, step_of_rst rfl rfl hq, rfl⟩

end Sys2Proof.Machine
end
